-- ==== Sys2Proof/Word.lean ====
section
/-! DEFINITION. The word types of the core (00_scope.md section 4, rule R5): all values are unsigned. -/

namespace Sys2Proof

/-- `u8`: one byte of a block, of the digest or of the input memory. -/
abbrev Byte := BitVec 8

/-- `u32`: a word; sums of words wrap modulo 2^32 (rule R7), which is `BitVec`'s own addition. -/
abbrev Word := BitVec 32

/-- `u64`: `SRC`, `LEN` and the bit length. -/
abbrev DWord := BitVec 64

end Sys2Proof
end

