-- ==== Sys2Proof/Syntax.lean ====
section
/-! DEFINITION. The commands (30_encoding.md rule R51), one constructor per row of spec/opcode_table.json. -/

namespace Sys2Proof

/-- A command with its operand. An operand is the field `IDX` of the command word, six bits (rules R49, R50). -/
inductive Instr where
  | nop
  | init
  | loadblk
  /-- `i = IDX`: the schedule index, 0 to 63. -/
  | schedw (i : BitVec 6)
  | expand
  | vinit
  /-- `i = IDX`: the round index, 0 to 63. -/
  | round (i : BitVec 6)
  | compress
  | fold
  /-- `t = IDX`: the tail-block selector; only 0 and 1 spell a legal word (`WellFormed`). -/
  | padtail (t : BitVec 6)
  | serialize
  | block
  | compute
deriving DecidableEq, Repr

end Sys2Proof
end

