-- ==== Sys2Proof/WellFormed.lean ====
section
/-! DEFINITION. Which command terms have a legal word (30_encoding.md rules R50 and R52). -/

namespace Sys2Proof

/-- PADTAIL requires `IDX` to be 0 or 1; SCHEDW and ROUND take every `IDX`; the others have no operand. -/
def Instr.WellFormed : Instr → Bool
  | .padtail t => decide (t.toNat ≤ 1)
  | .nop | .init | .loadblk | .schedw _ | .expand | .vinit | .round _ | .compress | .fold
  | .serialize | .block | .compute => true

end Sys2Proof
end

