-- ==== Sys2Proof/Decode.lean ====
section
/-! DEFINITION. The command word: its fields, the decoder and the encoder (30_encoding.md rules R48 to R54). -/

namespace Sys2Proof

/-- Why a word is illegal, one reason per clause of rule R52. -/
inductive Illegal where
  /-- `RSV0 != 0` -/
  | rsv0
  /-- `RSV1 != 0` -/
  | rsv1
  /-- `OP` is 0xD, 0xE or 0xF -/
  | reservedOp
  /-- `IDX != 0` in a command with no operand -/
  | idxNotZero
  /-- PADTAIL with `IDX > 1` -/
  | tailIdx
deriving DecidableEq, Repr

/-- What decoding a word gives: one command, or the verdict "illegal" (rule R54). -/
inductive Decoded where
  | cmd (i : Instr)
  | illegal (why : Illegal)
deriving DecidableEq, Repr

/-- Field `OP = v[3:0]` (rule R49). -/
def fieldOp (v : Word) : BitVec 4 := v.extractLsb' 0 4

/-- Field `RSV0 = v[7:4]` (rule R49). -/
def fieldRsv0 (v : Word) : BitVec 4 := v.extractLsb' 4 4

/-- Field `IDX = v[13:8]` (rule R49). -/
def fieldIdx (v : Word) : BitVec 6 := v.extractLsb' 8 6

/-- Field `RSV1 = v[31:14]` (rule R49). -/
def fieldRsv1 (v : Word) : BitVec 18 := v.extractLsb' 14 18

/-- A command that takes no operand requires `IDX = 0` (rule R50). -/
def noOperand (idx : BitVec 6) (i : Instr) : Decoded :=
  if idx = 0#6 then .cmd i else .illegal .idxNotZero

/-- The opcode map of rule R51, on the fields `OP` and `IDX`. -/
def decodeOp (op : BitVec 4) (idx : BitVec 6) : Decoded :=
  match op.toNat with
  | 0x0 => noOperand idx .nop
  | 0x1 => noOperand idx .init
  | 0x2 => noOperand idx .loadblk
  | 0x3 => .cmd (.schedw idx)
  | 0x4 => noOperand idx .expand
  | 0x5 => noOperand idx .vinit
  | 0x6 => .cmd (.round idx)
  | 0x7 => noOperand idx .compress
  | 0x8 => noOperand idx .fold
  | 0x9 => if idx.toNat ≤ 1 then .cmd (.padtail idx) else .illegal .tailIdx
  | 0xA => noOperand idx .serialize
  | 0xB => noOperand idx .block
  | 0xC => noOperand idx .compute
  | _ => .illegal .reservedOp

/-- The decoder, total on 32-bit words; it reads only the word (rules R52, R54). -/
def decode (v : Word) : Decoded :=
  if fieldRsv0 v ≠ 0#4 then .illegal .rsv0
  else if fieldRsv1 v ≠ 0#18 then .illegal .rsv1
  else decodeOp (fieldOp v) (fieldIdx v)

/-- The opcode of a command (rule R51, column OP). -/
def Instr.opcode : Instr → BitVec 4
  | .nop => 0x0#4
  | .init => 0x1#4
  | .loadblk => 0x2#4
  | .schedw _ => 0x3#4
  | .expand => 0x4#4
  | .vinit => 0x5#4
  | .round _ => 0x6#4
  | .compress => 0x7#4
  | .fold => 0x8#4
  | .padtail _ => 0x9#4
  | .serialize => 0xA#4
  | .block => 0xB#4
  | .compute => 0xC#4

/-- The operand field of a command; 0 where it takes none (rule R50). -/
def Instr.idx : Instr → BitVec 6
  | .schedw i => i
  | .round i => i
  | .padtail t => t
  | .nop | .init | .loadblk | .expand | .vinit | .compress | .fold | .serialize | .block
  | .compute => 0#6

/-- The mask column of rule R51: which bits of a legal word are fixed. -/
def Instr.mask : Instr → Word
  | .schedw _ => 0xFFFFC0FF#32
  | .round _ => 0xFFFFC0FF#32
  | .padtail _ => 0xFFFFFEFF#32
  | .nop | .init | .loadblk | .expand | .vinit | .compress | .fold | .serialize | .block
  | .compute => 0xFFFFFFFF#32

/-- The match column of rule R51: the fixed bits' values. -/
def Instr.pattern : Instr → Word
  | .nop => 0x00000000#32
  | .init => 0x00000001#32
  | .loadblk => 0x00000002#32
  | .schedw _ => 0x00000003#32
  | .expand => 0x00000004#32
  | .vinit => 0x00000005#32
  | .round _ => 0x00000006#32
  | .compress => 0x00000007#32
  | .fold => 0x00000008#32
  | .padtail _ => 0x00000009#32
  | .serialize => 0x0000000A#32
  | .block => 0x0000000B#32
  | .compute => 0x0000000C#32

/-- The encoder: `RSV1 ++ IDX ++ RSV0 ++ OP` (rule R49's pattern). -/
def encode (i : Instr) : Word := (0#18 ++ i.idx ++ 0#4 ++ i.opcode : BitVec 32)

/-- The command the decoder reads from an instruction whose low `nbits` bits are `w`, every other bit 0. A command is one
32-bit word on the bus (rule R48), so there is no byte order and no second word; bits at 32 and above spell nothing. -/
def decodeTableWord (nbits w : Nat) : Option Instr :=
  if w % 2 ^ nbits < 2 ^ 32 then
    match decode (BitVec.ofNat 32 (w % 2 ^ nbits)) with
    | .cmd i => some i
    | .illegal _ => none
  else none

end Sys2Proof
end

