-- ==== Sys2Proof/Machine/Codec.lean ====
section
/-! DEFINITION. The endian codec (41_endian_codec.md): 32-bit load and store and the 64-bit store, all big-endian, on a
byte buffer. Byte order is fixed (00_scope.md rule R11). -/

namespace Sys2Proof.Machine

/-- Byte `k` of a word, `k = 0` the most significant: bits `31-8k : 24-8k` (rule R69). -/
def wordByte (v : Word) (k : Nat) : Byte := v.extractLsb' (24 - 8 * k) 8

/-- Byte `k` of a 64-bit value, `k = 0` the most significant: bits `63-8k : 56-8k` (rule R70). -/
def dwordByte (v : DWord) (k : Nat) : Byte := v.extractLsb' (56 - 8 * k) 8

/-- `load_be32(buf, o)` (rule R68): the byte at the lowest offset becomes bits 31:24. -/
def loadBe32 {n : Nat} (buf : Vector Byte n) (o : Nat) (ho : o + 3 < n) : Word :=
  (buf[o] ++ buf[o + 1] ++ buf[o + 2] ++ buf[o + 3] : BitVec (8 + 8 + 8 + 8))

/-- `store_be32(buf, o, v)` (rule R69): four bytes from offset `o` on. -/
def storeBe32 {n : Nat} (buf : Vector Byte n) (o : Nat) (v : Word) : Vector Byte n :=
  Vector.ofFn fun j => if o ≤ j.val ∧ j.val < o + 4 then wordByte v (j.val - o) else buf[j]

/-- `store_be64(buf, o, v)` (rule R70): eight bytes from offset `o` on. -/
def storeBe64 {n : Nat} (buf : Vector Byte n) (o : Nat) (v : DWord) : Vector Byte n :=
  Vector.ofFn fun j => if o ≤ j.val ∧ j.val < o + 8 then dwordByte v (j.val - o) else buf[j]

end Sys2Proof.Machine
end

