-- ==== Sys2Proof/Config.lean ====
section
/-! DEFINITION. The parameters the spec leaves OPEN (00_scope.md section 3, rule R6's table) and the free values. -/

namespace Sys2Proof.Config

/-- A range of input-memory byte addresses that the launch memory `MEM` admits (20_memory.md rules R28, R34). -/
structure Region where
  base : Nat
  size : Nat
deriving DecidableEq, Repr

/-- The model parameters of 00_scope.md section 3: `ADDR_W`, `REG_BASE`, and which addresses `MEM` admits
(`MEM`'s bytes are the state's memory). A state carries them and no step writes them (log 5). -/
structure Params where
  addrW : Nat
  regBase : Nat
  regions : List Region
deriving DecidableEq, Repr

/-- `ADDR_W` is "1 to 64" (00_scope.md section 3). -/
abbrev Params.Ok (p : Params) : Prop := 1 ≤ p.addrW ∧ p.addrW ≤ 64

/-- The free values: what the `n`-th host read of a datapath register while busy returns (20_memory.md rule R47).
It has no body, so that nothing can be proved of the value (log 8). -/
opaque freeRead : Nat → Word

end Sys2Proof.Config
end

