-- ==== Sys2Proof/Machine/State.lean ====
section
/-! DEFINITION. The state of the core and of its surroundings, as plain data (10_state.md), and the state after reset. -/

namespace Sys2Proof.Machine

open Sys2Proof.Config

/-- The model faults of 60_exceptions.md rule R103, all of its kinds and no other. A fault ends the run (rule R103); the
hardware raises none of them. -/
inductive Fault where
  /-- Raised by a micro-step or an idle host read that reads an element whose valid bit is clear (rule R104, and 10_state.md
  rule R17, which makes such a read a model fault). Safe: the hardware goes on with an unspecified value. -/
  | uninitRead
  /-- Raised at the acceptance of PADTAIL or COMPUTE with `LEN >= 2^61` (rule R105). Safe: the hardware does not check. -/
  | contractLen
  /-- Raised at the acceptance of a command whose reads would pass `2^ADDR_W` (rule R106). Safe. -/
  | contractAddr
  /-- Raised by a host memory write inside `SPAN` while busy (rule R108). Safe. -/
  | hostRace
  /-- Raised by a host access that is no aligned 32-bit access inside the window (rule R109). Safe. -/
  | busForm
deriving DecidableEq, Repr

/-- What the model has no meaning for. -/
inductive Refusal where
  /-- Raised by an arm of `exec` for a command with no meaning yet; no arm raises it now. Safe: the run stops. -/
  | notModelled (mnemonic : String)
deriving DecidableEq, Repr

/-- The codes of `STATUS.ERRCODE` (60_exceptions.md rule R102); the codes 4 to 15 never occur. -/
inductive ErrCode where
  | none
  | illegalCmd
  | cmdWhileBusy
  | writeWhileBusy
deriving DecidableEq, Repr

/-- The fields of `STATUS` (10_state.md rule R21); its reserved bits have no storage and read 0. -/
structure Status where
  busy : Bool
  done : Bool
  err : Bool
  errCode : ErrCode
deriving DecidableEq, Repr

/-- The address set `SPAN` (10_state.md rule R25), always one range `[base, base+size)`; empty when `size = 0`. -/
structure Span where
  base : Nat
  size : Nat
deriving DecidableEq, Repr

/-- The micro-steps of 40_command_protocol.md rule R63. -/
inductive MicroStep where
  | uInit
  | uLoad (addr : Nat)
  | uSched (i : Fin 64)
  | uVinit
  | uRound (i : Fin 64)
  | uFold
  | uPad (t : Fin 2)
  | uSer
deriving DecidableEq, Repr

/-- The host's operations (30_encoding.md rules R55 and R56): a register access of `size` bytes at an absolute bus
address, the write of one byte of input memory, and the polling loop `wait`. -/
inductive HostOp where
  | wr (addr size : Nat) (v : Word)
  | rd (addr size : Nat)
  | memw (addr : Nat) (v : Byte)
  | wait
deriving DecidableEq, Repr

/-- One move of a run (40_command_protocol.md rule R57): a host operation, an engine step, or a reset. -/
inductive Event where
  | host (op : HostOp)
  | engine
  | reset
deriving DecidableEq, Repr

/-- A datapath register file: `n` elements of `w` bits, each with its valid bit (10_state.md rule R17). -/
structure RegFile (w n : Nat) where
  bits : Vector (BitVec w) n
  valid : Vector Bool n
deriving DecidableEq, Repr

/-- A register file that nothing has written since reset: every valid bit clear (rule R27). The bits are 0, DESIGN CHOICE
(log 7): no source fixes them, and nothing reads an element whose valid bit is clear. -/
def RegFile.unwritten (w n : Nat) : RegFile w n :=
  { bits := Vector.replicate n 0#w, valid := Vector.replicate n false }

/-- The bytes of the input memory, as (address, byte) pairs in a canonical form (`Memory.wf`). -/
abbrev Memory := List Host.Cell

/-- The machine. The fields `params` and `mem` are the spec's parameters and launch memory; `script`, `readLog` and
`draws` are the model's own. -/
structure State where
  /-- `ADDR_W`, `REG_BASE` and the addresses `MEM` admits; no step writes it (log 5). -/
  params : Params
  /-- The bytes of the input memory (20_memory.md rule R28); only the host writes it (rule R29). -/
  mem : Memory
  /-- HashState (rule R12). -/
  h : RegFile 32 8
  /-- Working variables `a..h` (rule R13). -/
  v : RegFile 32 8
  /-- MessageSchedule (rule R14). -/
  w : RegFile 32 64
  /-- Block buffer (rule R15). -/
  m : RegFile 8 64
  /-- Digest buffer (rule R16). -/
  d : RegFile 8 32
  /-- STATUS (rule R21). -/
  status : Status
  /-- SRC (rule R22); its hard-wired bits are 0 whenever it is written and whenever it is read. -/
  src : DWord
  /-- LEN (rule R23). -/
  len : DWord
  /-- The micro-steps still to perform (rule R24). -/
  q : List MicroStep
  /-- The addresses the command in flight may read (rule R25). -/
  span : Span
  /-- The model fault record (rule R27's table, 60_exceptions.md rule R110): a state that holds one admits no step. -/
  faultRecord : Option Fault
  /-- The environment's moves still to come, in order (log 1). -/
  script : List Event
  /-- The values host reads have returned, newest first (log 10). -/
  readLog : List Word
  /-- How many free values have been drawn (log 8). -/
  draws : Nat
deriving DecidableEq, Repr

/-- The empty `SPAN`. -/
def Span.empty : Span := { base := 0, size := 0 }

/-- STATUS after reset: `0x00000000` (rule R27). -/
def Status.reset : Status := { busy := false, done := false, err := false, errCode := .none }

/-- The parameters `State.reset` carries, DESIGN CHOICE (log 5): 32-bit addresses, all admitted, the window at 0. -/
def resetParams : Params :=
  { addrW := 32, regBase := 0, regions := [{ base := 0, size := 0x100000000 }] }

/-- The machine after power-on reset (10_state.md rule R27, 70_reset_and_hazards.md rule R120), with nothing scheduled. -/
def State.reset : State :=
  { params := resetParams
    mem := []
    h := RegFile.unwritten 32 8
    v := RegFile.unwritten 32 8
    w := RegFile.unwritten 32 64
    m := RegFile.unwritten 8 64
    d := RegFile.unwritten 8 32
    status := Status.reset
    src := 0#64
    len := 0#64
    q := []
    span := Span.empty
    faultRecord := none
    script := []
    readLog := []
    draws := 0 }

end Sys2Proof.Machine
end

