-- ==== Sys2Proof/Machine/Flags.lean ====
section
/-! DEFINITION. STATUS: the word the host reads and the four ways it changes (10_state.md rule R21,
40_command_protocol.md rules R58, R60 to R62, R65). Word arithmetic sets no flag (00_scope.md rule R7). -/

namespace Sys2Proof.Machine

/-- The value of an error code (60_exceptions.md rule R102). -/
def ErrCode.value : ErrCode → BitVec 4
  | .none => 0#4
  | .illegalCmd => 1#4
  | .cmdWhileBusy => 2#4
  | .writeWhileBusy => 3#4

/-- The 32-bit value a read of STATUS returns (rule R21): reserved bits 31:8 and 3 read 0. -/
def Status.toWord (st : Status) : Word :=
  (0#24 ++ st.errCode.value ++ 0#1 ++ BitVec.ofBool st.err ++ BitVec.ofBool st.done ++ BitVec.ofBool st.busy : BitVec 32)

/-- STATUS after the acceptance of a command (rule R58). -/
def Status.accepted : Status := { busy := true, done := false, err := false, errCode := .none }

/-- STATUS after completion: BUSY 0, DONE 1, ERR and ERRCODE kept (rule R65). -/
def Status.completed (st : Status) : Status := { st with busy := false, done := true }

/-- STATUS after a rejected access: ERR 1 and the code, replacing any earlier one; BUSY and DONE kept (60_exceptions.md
rule R101). -/
def Status.rejected (st : Status) (code : ErrCode) : Status := { st with err := true, errCode := code }

end Sys2Proof.Machine
end

