-- ==== Sys2Proof/Machine/Memory.lean ====
section
/-! DEFINITION. The input memory: a list of cells in one canonical form, and which addresses the read port admits
(20_memory.md section 1). -/

namespace Sys2Proof.Machine

open Sys2Proof.Config

/-- What an admitted address that no cell lists reads as. DESIGN CHOICE: the contents of `MEM` are a parameter (log 6). -/
def unlistedByte : Byte := 0x00#8

/-- The byte at an address: the listed one, or `unlistedByte`. -/
def Memory.get : Memory → Nat → Byte
  | [], _ => unlistedByte
  | c :: rest, a => if c.1 = a then c.2 else Memory.get rest a

/-- Write one byte, keeping the canonical form: writing `unlistedByte` removes the cell. -/
def Memory.set : Memory → Nat → Byte → Memory
  | [], a, x => if x = unlistedByte then [] else [(a, x)]
  | c :: rest, a, x =>
    if a < c.1 then
      if x = unlistedByte then c :: rest else (a, x) :: c :: rest
    else if a = c.1 then
      if x = unlistedByte then rest else (a, x) :: rest
    else c :: Memory.set rest a x

/-- The canonical form from address `lo` on: addresses strictly rising, no cell holding `unlistedByte`. -/
def Memory.wfFrom : Nat → Memory → Bool
  | _, [] => true
  | lo, c :: rest => decide (lo ≤ c.1) && decide (c.2 ≠ unlistedByte) && Memory.wfFrom (c.1 + 1) rest

/-- The canonical form: equal memories are equal lists. -/
def Memory.wf (mem : Memory) : Bool := Memory.wfFrom 0 mem

/-- Whether an address lies in a region. -/
def regionHas (a : Nat) (r : Region) : Bool := decide (r.base ≤ a) && decide (a < r.base + r.size)

/-- Whether `MEM` admits an address: a byte address below `2^ADDR_W` with memory behind it (rule R28). -/
def admits (p : Params) (a : Nat) : Bool := decide (a < 2 ^ p.addrW) && p.regions.any (regionHas a)

/-- `MemRead(addr, 1)`: the byte at `addr`, or nothing where `MEM` does not admit the address (rule R28). -/
def memRead (s : State) (a : Nat) : Option Byte :=
  if admits s.params a then some (Memory.get s.mem a) else none

/-- Whether `n` bytes from `addr` on are all admitted. -/
abbrev Readable (s : State) (addr n : Nat) : Prop := ∀ j, j < n → admits s.params (addr + j) = true

end Sys2Proof.Machine
end

