-- ==== Sys2Proof/Machine/Operands.lean ====
section
/-! DEFINITION. The operands of commands: `IDX`, `SRC` and `LEN` (30_encoding.md rule R50, 10_state.md rules R22, R23). -/

namespace Sys2Proof.Machine

open Sys2Proof.Config

/-- `i = zext(IDX)`, 0 to 63 (rule R50). -/
def idxOf (i : BitVec 6) : Fin 64 := i.toFin

/-- The hard-wired bits of `SRC`: bits `63:ADDR_W` are 0 (rule R22). -/
def wireSrc (p : Params) (x : DWord) : DWord := BitVec.ofNat 64 (x.toNat % 2 ^ p.addrW)

/-- `SRC` as every reader sees it, its hard-wired bits 0. -/
def srcOf (s : State) : DWord := wireSrc s.params s.src

/-- The byte address in `SRC`. -/
def srcAddr (s : State) : Nat := (srcOf s).toNat

/-- The message length in `LEN`. -/
def lenOf (s : State) : Nat := s.len.toNat

/-- Bits 31:0 of a 64-bit register. -/
def lowHalf (x : DWord) : Word := x.extractLsb' 0 32

/-- Bits 63:32 of a 64-bit register. -/
def highHalf (x : DWord) : Word := x.extractLsb' 32 32

/-- A 64-bit register with bits 31:0 replaced. -/
def setLowHalf (x : DWord) (v : Word) : DWord := (highHalf x ++ v : BitVec (32 + 32))

/-- A 64-bit register with bits 63:32 replaced. -/
def setHighHalf (x : DWord) (v : Word) : DWord := (v ++ lowHalf x : BitVec (32 + 32))

end Sys2Proof.Machine
end

