-- ==== Sys2Proof/Machine/Ops.lean ====
section
/-! DEFINITION. The named operations over the state: register files, updates of one field, the contract checks,
acceptance, rejection, completion and reset. The core has no trap mechanism (60_exceptions.md rule R112); what stands in
the place of taking an exception is `rejectAccess`. -/

namespace Sys2Proof.Machine

/-! ## Register files (10_state.md rule R17) -/

/-- Read one element: nothing where its valid bit is clear. -/
def RegFile.get {w n : Nat} (f : RegFile w n) (i : Fin n) : Option (BitVec w) :=
  if f.valid[i] = true then some f.bits[i] else none

/-- Whether every element holds a value. -/
abbrev RegFile.Full {w n : Nat} (f : RegFile w n) : Prop := ∀ i : Fin n, f.valid[i] = true

/-- Read every element: nothing where any valid bit is clear. -/
def RegFile.getAll {w n : Nat} (f : RegFile w n) : Option (Vector (BitVec w) n) :=
  if f.Full then some f.bits else none

/-- Write one element, which sets its valid bit. -/
def RegFile.set {w n : Nat} (f : RegFile w n) (i : Fin n) (x : BitVec w) : RegFile w n :=
  { bits := f.bits.set i x, valid := f.valid.set i true }

/-- A register file all of whose elements have just been written. -/
def RegFile.ofAll {w n : Nat} (xs : Vector (BitVec w) n) : RegFile w n :=
  { bits := xs, valid := Vector.replicate n true }

/-- `load_be32` of a byte file: nothing where one of the four valid bits is clear (41_endian_codec.md rule R68). -/
def RegFile.load32 {n : Nat} (f : RegFile 8 n) (o : Nat) (ho : o + 3 < n) : Option Word :=
  if f.valid[o] = true ∧ f.valid[o + 1] = true ∧ f.valid[o + 2] = true ∧ f.valid[o + 3] = true
  then some (loadBe32 f.bits o ho) else none

/-- `store_be32` into a byte file, which sets the four valid bits (41_endian_codec.md rule R69). -/
def RegFile.store32 {n : Nat} (f : RegFile 8 n) (o : Nat) (x : Word) : RegFile 8 n :=
  { bits := storeBe32 f.bits o x
    valid := Vector.ofFn fun j => if o ≤ j.val ∧ j.val < o + 4 then true else f.valid[j] }

/-! ## Updates of one field -/

def State.setMem (s : State) (x : Memory) : State := { s with mem := x }
def State.setH (s : State) (x : RegFile 32 8) : State := { s with h := x }
def State.setV (s : State) (x : RegFile 32 8) : State := { s with v := x }
def State.setW (s : State) (x : RegFile 32 64) : State := { s with w := x }
def State.setM (s : State) (x : RegFile 8 64) : State := { s with m := x }
def State.setD (s : State) (x : RegFile 8 32) : State := { s with d := x }
def State.setStatus (s : State) (x : Status) : State := { s with status := x }
def State.setSrc (s : State) (x : DWord) : State := { s with src := x }
def State.setLen (s : State) (x : DWord) : State := { s with len := x }
def State.setQ (s : State) (x : List MicroStep) : State := { s with q := x }
def State.setSpan (s : State) (x : Span) : State := { s with span := x }
def State.setScript (s : State) (x : List Event) : State := { s with script := x }
def State.setReadLog (s : State) (x : List Word) : State := { s with readLog := x }
def State.setDraws (s : State) (x : Nat) : State := { s with draws := x }

/-! ## Micro-steps -/

/-- What performing a micro-step gives (40_command_protocol.md rule R64): a new state, a read of an unwritten element, or
no step at all because a memory read is not admitted. -/
inductive MicroResult where
  | done (s : State)
  | uninit
  | stuck
deriving DecidableEq, Repr

/-! ## The command protocol -/

/-- Whether an address lies in `SPAN`. -/
def Span.has (sp : Span) (a : Nat) : Bool := decide (sp.base ≤ a) && decide (a < sp.base + sp.size)

/-- The fault of PADTAIL and COMPUTE when `LEN >= 2^61` (40_command_protocol.md rule R59). -/
def lenFault (s : State) : Option Fault := if 2 ^ 61 ≤ lenOf s then some .contractLen else none

/-- The fault when `n` bytes from `SRC` on pass `2^ADDR_W` (rule R59); the sum is exact (20_memory.md rule R33). -/
def addrFault (s : State) (n : Nat) : Option Fault :=
  if 2 ^ s.params.addrW < srcAddr s + n then some .contractAddr else none

/-- `check_contract` of LOADBLK (rule R59). -/
def blockContract (s : State) : Option Fault := addrFault s 64

/-- `check_contract` of PADTAIL and COMPUTE, the length first (rule R59, 60_exceptions.md rule R111). -/
def messageContract (s : State) : Option Fault :=
  match lenFault s with
  | some f => some f
  | none => addrFault s (lenOf s)

/-- `[SRC, SRC+64)`: the span of LOADBLK (10_state.md rule R25). -/
def blockSpan (s : State) : Span := { base := srcAddr s, size := 64 }

/-- `[SRC, SRC+LEN)`: the span of PADTAIL and COMPUTE (10_state.md rule R25). -/
def messageSpan (s : State) : Span := { base := srcAddr s, size := lenOf s }

/-- A rejected host access: ERR and its code, nothing else (60_exceptions.md rule R101). -/
def rejectAccess (s : State) (code : ErrCode) : State := s.setStatus (s.status.rejected code)

/-- The state change of acceptance (40_command_protocol.md rule R58). -/
def startCommand (s : State) (q : List MicroStep) (sp : Span) : State :=
  { s with status := Status.accepted, q := q, span := sp }

/-- The contract and the span of the commands that read no memory (rule R59, 10_state.md rule R25). -/
def noContract (_ : State) : Option Fault := none

/-- The empty span. -/
def noSpan (_ : State) : Span := Span.empty

/-- A legal command word at CMD, in the order of 60_exceptions.md rule R111: rejected while busy (rule R61), else the
contract's fault (rule R59), else accepted with its expansion and its span (rule R58). -/
def issue (contract : State → Option Fault) (expand : State → List MicroStep) (span : State → Span) (s : State) :
    Host.Outcome State Fault Refusal :=
  if s.status.busy then .next (rejectAccess s .cmdWhileBusy)
  else match contract s with
    | some f => .fault f
    | none => .next (startCommand s (expand s) (span s))

/-- An illegal command word at CMD: rejected as CMD_WHILE_BUSY while busy, else as ILLEGAL_CMD (rules R60 and R61). -/
def issueIllegal (s : State) : Host.Outcome State Fault Refusal :=
  if s.status.busy then .next (rejectAccess s .cmdWhileBusy) else .next (rejectAccess s .illegalCmd)

/-- The engine's completion step (rule R65). -/
def completeCommand (s : State) : State := { s with status := s.status.completed, span := Span.empty }

/-- The reset event (70_reset_and_hazards.md rule R120): the input memory, the parameters and the fault record stay, and so
do the surroundings' own fields. -/
def resetCore (s : State) : State :=
  { State.reset with
    params := s.params, mem := s.mem, faultRecord := s.faultRecord, script := s.script, readLog := s.readLog
    draws := s.draws }

/-- The state a model fault leaves behind (60_exceptions.md rules R103 and R110): the record is set and no step follows. -/
def recordFault (s : State) (f : Fault) : State := { s with faultRecord := some f }

/-! ## Host reads -/

/-- The value of a host read goes to the host. -/
def logRead (s : State) (x : Word) : State := s.setReadLog (x :: s.readLog)

/-- A read that returns a free value (20_memory.md rule R47). -/
def drawRead (s : State) : State :=
  { s with readLog := Config.freeRead s.draws :: s.readLog, draws := s.draws + 1 }

/-! ## Micro-step lists (40_command_protocol.md rule R63) -/

/-- `uSCHED(0), ..., uSCHED(63)`. -/
def schedSteps : List MicroStep := (List.finRange 64).map MicroStep.uSched

/-- `uROUND(0), ..., uROUND(63)`. -/
def roundSteps : List MicroStep := (List.finRange 64).map MicroStep.uRound

/-- `uVINIT, uROUND(0), ..., uROUND(63)`. -/
def compressSteps : List MicroStep := .uVinit :: roundSteps

/-- `BLK`: 130 micro-steps. -/
def blkSteps : List MicroStep := schedSteps ++ compressSteps ++ [.uFold]

end Sys2Proof.Machine
end

