-- ==== Sys2Proof/Machine/Blocks.lean ====
section
/-! DEFINITION. Block formation and padding (42_blocks_and_padding.md): the block sequence, the micro-steps `uLOAD` and
`uPAD`, and the commands LOADBLK and PADTAIL. A message is given by its bytes, `msg n` being byte `n`. -/

namespace Sys2Proof.Machine

/-- The bit length `L*8` as a `u64` (rule R76). -/
def bitLength (L : Nat) : DWord := BitVec.ofNat 64 (L * 8)

/-- Full block `b` of a message: `msg[64b .. 64b+63]` (rule R73). -/
@[irreducible] def fullBlock (msg : Nat → Byte) (b : Nat) : Vector Byte 64 :=
  Vector.ofFn fun j => msg (64 * b + j.val)

/-- The staging block before its length: the `R` remaining bytes, `0x80`, zeros (rule R73). -/
def stagingBytes (msg : Nat → Byte) (L : Nat) : Vector Byte 64 :=
  Vector.ofFn fun j =>
    if j.val < L % 64 then msg (64 * (L / 64) + j.val) else if j.val = L % 64 then 0x80#8 else 0x00#8

/-- Tail block 0, the staging block `T`; it holds the length only when `R < 56` (rule R73). -/
@[irreducible] def tailBlock0 (msg : Nat → Byte) (L : Nat) : Vector Byte 64 :=
  if L % 64 < 56 then storeBe64 (stagingBytes msg L) 56 (bitLength L) else stagingBytes msg L

/-- Tail block 1, the block `U`: zeros and the length (rule R73). -/
@[irreducible] def tailBlock1 (L : Nat) : Vector Byte 64 :=
  storeBe64 (Vector.replicate 64 0x00#8) 56 (bitLength L)

/-- How many tail blocks a message of `L` bytes has (rule R74). -/
def tailCount (L : Nat) : Nat := if L % 64 < 56 then 1 else 2

/-- `N`, how many blocks a message of `L` bytes has (rule R74). -/
def blockCount (L : Nat) : Nat := L / 64 + tailCount L

/-- Block `b` of `blocks(msg, L)`, for `b < blockCount L` (rule R73). -/
def blockAt (msg : Nat → Byte) (L b : Nat) : Vector Byte 64 :=
  if b < L / 64 then fullBlock msg b else if b = L / 64 then tailBlock0 msg L else tailBlock1 L

/-- `blocks(msg, L)` (rule R73). -/
def blocks (msg : Nat → Byte) (L : Nat) : List (Vector Byte 64) :=
  (List.range (blockCount L)).map (blockAt msg L)

/-- The bytes of the input memory from `base` on: byte `n` is `MemRead(base + n, 1)` (20_memory.md rule R30). -/
def bytesFrom (s : State) (base : Nat) (n : Nat) : Byte := Memory.get s.mem (base + n)

/-- `uLOAD(addr)` (rule R77); no step where a byte is not admitted (60_exceptions.md rule R107). -/
def microLoad (addr : Nat) (s : State) : MicroResult :=
  if Readable s addr 64 then .done (s.setM (RegFile.ofAll (fullBlock (bytesFrom s addr) 0))) else .stuck

/-- `uPAD(0)` (rule R78): the staging block of the message at `SRC`, reading its last `LEN mod 64` bytes. -/
def microPad0 (s : State) : MicroResult :=
  if Readable s (srcAddr s + 64 * (lenOf s / 64)) (lenOf s % 64) then
    .done (s.setM (RegFile.ofAll (tailBlock0 (bytesFrom s (srcAddr s)) (lenOf s))))
  else .stuck

/-- `uPAD(1)` (rule R78): the length-only block, reading no memory. -/
def microPad1 (s : State) : MicroResult := .done (s.setM (RegFile.ofAll (tailBlock1 (lenOf s))))

/-- `uPAD(t)` (rule R78). -/
def microPad (t : Fin 2) (s : State) : MicroResult := if t = 0 then microPad0 s else microPad1 s

/-- LOADBLK (rule R77): `uLOAD(SRC)`. -/
def execLoadblk (s : State) : Host.Outcome State Fault Refusal :=
  issue blockContract (fun s => [.uLoad (srcAddr s)]) blockSpan s

/-- PADTAIL t (rule R78): `uPAD(t)`. A selector above 1 spells an illegal word (30_encoding.md rule R52; log 14). -/
def execPadtail (t : BitVec 6) (s : State) : Host.Outcome State Fault Refusal :=
  if h : t.toNat < 2 then issue messageContract (fun _ => [.uPad ⟨t.toNat, h⟩]) messageSpan s else issueIllegal s

end Sys2Proof.Machine
end

