-- ==== Sys2Proof/Machine/Tables.lean ====
section
/-! DEFINITION. The constant tables `IV` and `K` (10_state.md rules R18 and R19). No command and no reset changes them, so
they are constants and no part of the state. -/

namespace Sys2Proof.Machine

/-- `IV[0..7]` (rule R18). -/
def iv : Vector Word 8 :=
  #v[0x6a09e667#32, 0xbb67ae85#32, 0x3c6ef372#32, 0xa54ff53a#32,
     0x510e527f#32, 0x9b05688c#32, 0x1f83d9ab#32, 0x5be0cd19#32]

/-- `K[0..31]`, rows of eight (rule R19's table). -/
def kRowsLow : Vector (Vector Word 8) 4 :=
  #v[#v[0x428a2f98#32, 0x71374491#32, 0xb5c0fbcf#32, 0xe9b5dba5#32, 0x3956c25b#32, 0x59f111f1#32, 0x923f82a4#32, 0xab1c5ed5#32],
     #v[0xd807aa98#32, 0x12835b01#32, 0x243185be#32, 0x550c7dc3#32, 0x72be5d74#32, 0x80deb1fe#32, 0x9bdc06a7#32, 0xc19bf174#32],
     #v[0xe49b69c1#32, 0xefbe4786#32, 0x0fc19dc6#32, 0x240ca1cc#32, 0x2de92c6f#32, 0x4a7484aa#32, 0x5cb0a9dc#32, 0x76f988da#32],
     #v[0x983e5152#32, 0xa831c66d#32, 0xb00327c8#32, 0xbf597fc7#32, 0xc6e00bf3#32, 0xd5a79147#32, 0x06ca6351#32, 0x14292967#32]]

/-- `K[32..63]`, rows of eight (rule R19's table). -/
def kRowsHigh : Vector (Vector Word 8) 4 :=
  #v[#v[0x27b70a85#32, 0x2e1b2138#32, 0x4d2c6dfc#32, 0x53380d13#32, 0x650a7354#32, 0x766a0abb#32, 0x81c2c92e#32, 0x92722c85#32],
     #v[0xa2bfe8a1#32, 0xa81a664b#32, 0xc24b8b70#32, 0xc76c51a3#32, 0xd192e819#32, 0xd6990624#32, 0xf40e3585#32, 0x106aa070#32],
     #v[0x19a4c116#32, 0x1e376c08#32, 0x2748774c#32, 0x34b0bcb5#32, 0x391c0cb3#32, 0x4ed8aa4a#32, 0x5b9cca4f#32, 0x682e6ff3#32],
     #v[0x748f82ee#32, 0x78a5636f#32, 0x84c87814#32, 0x8cc70208#32, 0x90befffa#32, 0xa4506ceb#32, 0xbef9a3f7#32, 0xc67178f2#32]]

/-- `K[i]`, the round constant of round `i` (rule R19; log 19). -/
def roundConstant (i : Fin 64) : Word :=
  if h : i.val < 32 then (kRowsLow[i.val / 8]'(by omega))[i.val % 8]'(by omega)
  else (kRowsHigh[(i.val - 32) / 8]'(by omega))[(i.val - 32) % 8]'(by omega)

end Sys2Proof.Machine
end

