-- ==== Sys2Proof/Machine/Words.lean ====
section
/-! DEFINITION. The word functions of 00_scope.md section 4: rotation and shift. Sum, `xor`, `and` and `not` are
`BitVec`'s `+`, `^^^`, `&&&` and `~~~`, modulo 2^32 and bitwise (rules R7 and R10; the reading of R10 is log 19). -/

namespace Sys2Proof.Machine

/-- Right rotation by `n` bits, `0 < n < 32` (rule R8). -/
def rotr (v : Word) (n : Nat) : Word := (v >>> n) ||| (v <<< (32 - n))

/-- Logical right shift, zeros in at the top (rule R9; log 19). -/
def shr (v : Word) (n : Nat) : Word := v >>> n

end Sys2Proof.Machine
end

