-- ==== Sys2Proof/Machine/Round.lean ====
section
/-! DEFINITION. The compression round function (44_round.md): its functions, the micro-steps `uVINIT` and `uROUND`, and the
commands VINIT, ROUND and COMPRESS. -/

namespace Sys2Proof.Machine

/-- `Sigma1` (rule R85). -/
def bigSigma1 (e : Word) : Word := rotr e 6 ^^^ rotr e 11 ^^^ rotr e 25

/-- `Sigma0` (rule R86). -/
def bigSigma0 (a : Word) : Word := rotr a 2 ^^^ rotr a 13 ^^^ rotr a 22

/-- `Ch` (rule R87). -/
def ch (e f g : Word) : Word := (e &&& f) ^^^ (~~~e &&& g)

/-- `Maj` (rule R88). -/
def maj (a b c : Word) : Word := (a &&& b) ^^^ (a &&& c) ^^^ (b &&& c)

/-- `t1` of rule R89, from `v = (a, b, c, d, e, f, g, h)`. -/
def roundT1 (v : Vector Word 8) (k w : Word) : Word := v[7] + bigSigma1 v[4] + ch v[4] v[5] v[6] + k + w

/-- `t2` of rule R89. -/
def roundT2 (v : Vector Word 8) : Word := bigSigma0 v[0] + maj v[0] v[1] v[2]

/-- One round (rule R89): `(t1 + t2, a, b, c, d + t1, e, f, g)`, every element from the old tuple. -/
def roundFn (v : Vector Word 8) (k w : Word) : Vector Word 8 :=
  #v[roundT1 v k w + roundT2 v, v[0], v[1], v[2], v[3] + roundT1 v k w, v[4], v[5], v[6]]

/-- `compress(s, w)` (rule R92): 64 rounds from `s` with the schedule `w`. Irreducible, so that comparing two states does not
compute it; `compress.eq_1` unfolds it. -/
@[irreducible] def compress (s : Vector Word 8) (w : Vector Word 64) : Vector Word 8 :=
  (List.finRange 64).foldl (fun v i => roundFn v (roundConstant i) w[i]) s

/-- `uVINIT` (rule R90). -/
def microVinit (s : State) : MicroResult :=
  match s.h.getAll with
  | some hs => .done (s.setV (RegFile.ofAll hs))
  | none => .uninit

/-- `uROUND(i)` (rule R91): all eight working variables written at once from the old ones. -/
def microRound (i : Fin 64) (s : State) : MicroResult :=
  match s.v.getAll, s.w.get i with
  | some vs, some x => .done (s.setV (RegFile.ofAll (roundFn vs (roundConstant i) x)))
  | _, _ => .uninit

/-- VINIT (rule R90). -/
def execVinit (s : State) : Host.Outcome State Fault Refusal :=
  issue noContract (fun _ => [.uVinit]) noSpan s

/-- ROUND i (rule R91). -/
def execRound (i : BitVec 6) (s : State) : Host.Outcome State Fault Refusal :=
  issue noContract (fun _ => [.uRound (idxOf i)]) noSpan s

/-- COMPRESS (rule R92): `uVINIT, uROUND(0), ..., uROUND(63)`. -/
def execCompress (s : State) : Host.Outcome State Fault Refusal :=
  issue noContract (fun _ => compressSteps) noSpan s

end Sys2Proof.Machine
end

