-- ==== Sys2Proof/Machine/Schedule.lean ====
section
/-! DEFINITION. The message schedule expander (43_schedule.md): its functions, the micro-step `uSCHED`, and the commands
SCHEDW and EXPAND. -/

namespace Sys2Proof.Machine

/-- `sigma0` (rule R80). -/
def sigma0 (x : Word) : Word := rotr x 7 ^^^ rotr x 18 ^^^ shr x 3

/-- `sigma1` (rule R81). -/
def sigma1 (x : Word) : Word := rotr x 17 ^^^ rotr x 19 ^^^ shr x 10

/-- The recurrence of rule R82: `w[i-16] + sigma0(w[i-15]) + w[i-7] + sigma1(w[i-2])`, modulo 2^32. -/
def schedNext (w16 w15 w7 w2 : Word) : Word := w16 + sigma0 w15 + w7 + sigma1 w2

/-- One word of the schedule of the block `B`, from the words before it (rule R82). -/
def scheduleStep (B : Vector Byte 64) (w : Vector Word 64) (i : Fin 64) : Vector Word 64 :=
  if h : i.val < 16 then w.set i (loadBe32 B (4 * i.val) (by omega))
  else w.set i (schedNext w[i.val - 16] w[i.val - 15] w[i.val - 7] w[i.val - 2])

/-- `schedule(B)` (rule R82): the 64 words of a block, in ascending order. Irreducible, so that
comparing two states does not compute it; `schedule.eq_1` unfolds it. -/
@[irreducible] def schedule (B : Vector Byte 64) : Vector Word 64 :=
  (List.finRange 64).foldl (scheduleStep B) (Vector.replicate 64 0#32)

/-- The value `uSCHED(i)` writes, or nothing where it reads an unwritten element (rule R83). -/
def schedValue (s : State) (i : Fin 64) : Option Word :=
  if h : i.val < 16 then s.m.load32 (4 * i.val) (by omega)
  else
    match s.w.get ⟨i.val - 16, by omega⟩, s.w.get ⟨i.val - 15, by omega⟩,
        s.w.get ⟨i.val - 7, by omega⟩, s.w.get ⟨i.val - 2, by omega⟩ with
    | some w16, some w15, some w7, some w2 => some (schedNext w16 w15 w7 w2)
    | _, _, _, _ => none

/-- `uSCHED(i)` (rule R83). -/
def microSched (i : Fin 64) (s : State) : MicroResult :=
  match schedValue s i with
  | some x => .done (s.setW (s.w.set i x))
  | none => .uninit

/-- SCHEDW i (rule R83): its expansion is `uSCHED(i)`. -/
def execSchedw (i : BitVec 6) (s : State) : Host.Outcome State Fault Refusal :=
  issue noContract (fun _ => [.uSched (idxOf i)]) noSpan s

/-- EXPAND (rule R84): its expansion is `uSCHED(0), ..., uSCHED(63)`. -/
def execExpand (s : State) : Host.Outcome State Fault Refusal :=
  issue noContract (fun _ => schedSteps) noSpan s

end Sys2Proof.Machine
end

