-- ==== Sys2Proof/Machine/Engine.lean ====
section
/-! DEFINITION. The hash engine (45_engine.md): the micro-steps `uINIT`, `uFOLD` and `uSER`, the commands NOP, INIT, FOLD,
SERIALIZE, BLOCK and COMPUTE, and the engine's own step (40_command_protocol.md rules R64 to R66). -/

namespace Sys2Proof.Machine

/-- The elementwise sum modulo 2^32 of two states (rule R95). -/
@[irreducible] def addStates (x y : Vector Word 8) : Vector Word 8 := Vector.ofFn fun j => x[j] + y[j]

/-- What BLOCK makes of the HashState `x` and the block `B` (rule R97). -/
def foldBlock (x : Vector Word 8) (B : Vector Byte 64) : Vector Word 8 := addStates x (compress x (schedule B))

/-- The final HashState of a message of `L` bytes (rule R98). -/
def hashState (msg : Nat → Byte) (L : Nat) : Vector Word 8 := (blocks msg L).foldl foldBlock iv

/-- The HashState after the first `b` blocks of a message. -/
def hashPrefix (msg : Nat → Byte) (L b : Nat) : Vector Word 8 :=
  ((List.range b).map (blockAt msg L)).foldl foldBlock iv

/-- The 32 bytes of a HashState, each word big-endian, words in order (rule R96). -/
@[irreducible] def serialBytes (x : Vector Word 8) : Vector Byte 32 :=
  Vector.ofFn fun k => wordByte (x[k.val / 4]'(by omega)) (k.val % 4)

/-- The digest of a message of `L` bytes (rule R98). -/
def digest (msg : Nat → Byte) (L : Nat) : Vector Byte 32 := serialBytes (hashState msg L)

/-- `uINIT` (rule R94). -/
def microInit (s : State) : MicroResult := .done (s.setH (RegFile.ofAll iv))

/-- `uFOLD` (rule R95). -/
def microFold (s : State) : MicroResult :=
  match s.h.getAll, s.v.getAll with
  | some hs, some vs => .done (s.setH (RegFile.ofAll (addStates hs vs)))
  | _, _ => .uninit

/-- The digest buffer after `store_be32(D, 4*j, H[j])` for `j` in 0..7 (rule R96). -/
def serializeInto (d : RegFile 8 32) (hs : Vector Word 8) : RegFile 8 32 :=
  (List.finRange 8).foldl (fun d j => d.store32 (4 * j.val) hs[j]) d

/-- `uSER` (rule R96). -/
def microSer (s : State) : MicroResult :=
  match s.h.getAll with
  | some hs => .done (s.setD (serializeInto s.d hs))
  | none => .uninit

/-- The loads and blocks of the `n` full blocks from `addr` on: `uLOAD(addr + 64*b), BLK` (rule R98). -/
def fullBlockSteps : Nat → Nat → List MicroStep
  | 0, _ => []
  | n + 1, addr => .uLoad addr :: (blkSteps ++ fullBlockSteps n (addr + 64))

/-- `uPAD(0), BLK`, then `uPAD(1), BLK` only if `R >= 56` (rule R98). -/
def tailSteps (L : Nat) : List MicroStep :=
  .uPad 0 :: (blkSteps ++ (if 56 ≤ L % 64 then .uPad 1 :: blkSteps else []))

/-- The expansion of COMPUTE (40_command_protocol.md rule R63). -/
def computeSteps (addr L : Nat) : List MicroStep :=
  .uInit :: (fullBlockSteps (L / 64) addr ++ tailSteps L ++ [.uSer])

/-- NOP (rule R93): no micro-step. -/
def execNop (s : State) : Host.Outcome State Fault Refusal := issue noContract (fun _ => []) noSpan s

/-- INIT (rule R94). -/
def execInit (s : State) : Host.Outcome State Fault Refusal := issue noContract (fun _ => [.uInit]) noSpan s

/-- FOLD (rule R95). -/
def execFold (s : State) : Host.Outcome State Fault Refusal := issue noContract (fun _ => [.uFold]) noSpan s

/-- SERIALIZE (rule R96). -/
def execSerialize (s : State) : Host.Outcome State Fault Refusal := issue noContract (fun _ => [.uSer]) noSpan s

/-- BLOCK (rule R97): the list `BLK`. -/
def execBlock (s : State) : Host.Outcome State Fault Refusal := issue noContract (fun _ => blkSteps) noSpan s

/-- COMPUTE (rule R98). -/
def execCompute (s : State) : Host.Outcome State Fault Refusal :=
  issue messageContract (fun s => computeSteps (srcAddr s) (lenOf s)) messageSpan s

/-- Perform one micro-step (40_command_protocol.md rule R63, column "defined by"). -/
def perform (u : MicroStep) (s : State) : MicroResult :=
  match u with
  | .uInit => microInit s
  | .uLoad addr => microLoad addr s
  | .uSched i => microSched i s
  | .uVinit => microVinit s
  | .uRound i => microRound i s
  | .uFold => microFold s
  | .uPad t => microPad t s
  | .uSer => microSer s

/-- The engine's turn. Busy with steps left: the head micro-step, or its fault, or no change where it has no step (rule
R64, 60_exceptions.md rule R107; log 3). Busy with none left: completion (rule R65). Idle: no step (rule R66; log 2 and
log 4). -/
def engineTurn (s : State) : Host.Outcome State Fault Refusal :=
  if s.status.busy then
    match s.q with
    | [] => .next (completeCommand s)
    | u :: rest =>
      match perform u s with
      | .done t => .next (t.setQ rest)
      | .uninit => .fault .uninitRead
      | .stuck => .next s
  else .next s

/-- `k` engine turns with no other event between them. -/
def engineRun : Nat → State → Host.Outcome State Fault Refusal
  | 0, s => .next s
  | k + 1, s =>
    match engineTurn s with
    | .next t => engineRun k t
    | .fault f => .fault f
    | .refused r => .refused r

end Sys2Proof.Machine
end

