-- ==== Sys2Proof/Machine/Dispatch.lean ====
section
/-! DEFINITION. `exec i s`: the host presents command `i` at CMD in state `s` (40_command_protocol.md rules R58 to R61). One
arm per constructor, one direct call of that command's meaning. -/

namespace Sys2Proof.Machine

def exec (i : Instr) (s : State) : Host.Outcome State Fault Refusal :=
  match i with
  | .nop => Sys2Proof.Machine.execNop s
  | .init => Sys2Proof.Machine.execInit s
  | .loadblk => Sys2Proof.Machine.execLoadblk s
  | .schedw k => Sys2Proof.Machine.execSchedw k s
  | .expand => Sys2Proof.Machine.execExpand s
  | .vinit => Sys2Proof.Machine.execVinit s
  | .round k => Sys2Proof.Machine.execRound k s
  | .compress => Sys2Proof.Machine.execCompress s
  | .fold => Sys2Proof.Machine.execFold s
  | .padtail t => Sys2Proof.Machine.execPadtail t s
  | .serialize => Sys2Proof.Machine.execSerialize s
  | .block => Sys2Proof.Machine.execBlock s
  | .compute => Sys2Proof.Machine.execCompute s

end Sys2Proof.Machine
end

