-- ==== Sys2Proof/Machine/RegMap.lean ====
section
/-! DEFINITION. The register window (20_memory.md rules R42 to R47): names, offsets and what an idle read returns. -/

namespace Sys2Proof.Machine

/-- The registers of the window (rule R42); the reserved offsets have no name. -/
inductive RegName where
  | cmd
  | status
  | srcLo
  | srcHi
  | lenLo
  | lenHi
  | hWord (j : Fin 8)
  | vWord (j : Fin 8)
  | digestWord (k : Fin 8)
  | mWord (t : Fin 16)
  | wWord (i : Fin 64)
deriving DecidableEq, Repr

/-- The offset of a register from `REG_BASE` (rule R42). -/
def RegName.offset : RegName → Nat
  | .cmd => 0x000
  | .status => 0x004
  | .srcLo => 0x008
  | .srcHi => 0x00C
  | .lenLo => 0x010
  | .lenHi => 0x014
  | .hWord j => 0x020 + 4 * j.val
  | .vWord j => 0x040 + 4 * j.val
  | .digestWord k => 0x060 + 4 * k.val
  | .mWord t => 0x080 + 4 * t.val
  | .wWord i => 0x100 + 4 * i.val

/-- The register at an aligned offset below 0x200; none at a reserved offset (rule R42). -/
def regAt (off : Nat) : Option RegName :=
  if off = 0x000 then some .cmd
  else if off = 0x004 then some .status
  else if off = 0x008 then some .srcLo
  else if off = 0x00C then some .srcHi
  else if off = 0x010 then some .lenLo
  else if off = 0x014 then some .lenHi
  else if h : 0x020 ≤ off ∧ off < 0x040 then some (.hWord ⟨(off - 0x020) / 4, by omega⟩)
  else if h : 0x040 ≤ off ∧ off < 0x060 then some (.vWord ⟨(off - 0x040) / 4, by omega⟩)
  else if h : 0x060 ≤ off ∧ off < 0x080 then some (.digestWord ⟨(off - 0x060) / 4, by omega⟩)
  else if h : 0x080 ≤ off ∧ off < 0x0C0 then some (.mWord ⟨(off - 0x080) / 4, by omega⟩)
  else if h : 0x100 ≤ off ∧ off < 0x200 then some (.wWord ⟨(off - 0x100) / 4, by omega⟩)
  else none

/-- The datapath registers, whose reads while busy are free draws (rule R47). -/
def RegName.isDatapath : RegName → Bool
  | .hWord _ | .vWord _ | .digestWord _ | .mWord _ | .wWord _ => true
  | .cmd | .status | .srcLo | .srcHi | .lenLo | .lenHi => false

/-- What a read of a register returns; nothing where an element it reads has its valid bit clear (rules R42, R45, R46). -/
def regView (s : State) : RegName → Option Word
  | .cmd => some 0#32
  | .status => some s.status.toWord
  | .srcLo => some (lowHalf (srcOf s))
  | .srcHi => some (highHalf (srcOf s))
  | .lenLo => some (lowHalf s.len)
  | .lenHi => some (highHalf s.len)
  | .hWord j => s.h.get j
  | .vWord j => s.v.get j
  | .digestWord k => s.d.load32 (4 * k.val) (by omega)
  | .mWord t => s.m.load32 (4 * t.val) (by omega)
  | .wWord i => s.w.get i

/-- A host read of a named register: a free draw for a datapath register while busy (rule R47), else its value, or
UNINIT_READ (rule R46, 60_exceptions.md rule R104). -/
def readReg (s : State) (r : RegName) : Host.Outcome State Fault Refusal :=
  if r.isDatapath = true ∧ s.status.busy = true then .next (drawRead s)
  else
    match regView s r with
    | some x => .next (logRead s x)
    | none => .fault .uninitRead

/-- A host read at an offset of the window: a reserved offset reads 0 (rule R45). -/
def readOffset (s : State) (off : Nat) : Host.Outcome State Fault Refusal :=
  match regAt off with
  | some r => readReg s r
  | none => .next (logRead s 0#32)

/-- The offset of a host access that has the right form, 32 bits at an aligned offset inside the window (rule R43). -/
def windowOffset (s : State) (addr size : Nat) : Option Nat :=
  if size = 4 ∧ s.params.regBase ≤ addr ∧ (addr - s.params.regBase) % 4 = 0 ∧ addr - s.params.regBase < 0x200
  then some (addr - s.params.regBase) else none

/-- A host write to a half of SRC or LEN: rejected while busy, else stored (40_command_protocol.md rule R62). -/
def writeOperand (s stored : State) : Host.Outcome State Fault Refusal :=
  if s.status.busy then .next (rejectAccess s .writeWhileBusy) else .next stored

end Sys2Proof.Machine
end

