-- ==== Sys2Proof/Machine/Bus.lean ====
section
/-! DEFINITION. The moves of a run: the host's operations on the register window and on the input memory, the engine's
turn, and reset (40_command_protocol.md rule R57, 60_exceptions.md rule R111). -/

namespace Sys2Proof.Machine

/-- A host write of a word to CMD: decoded, then presented as a command, or rejected (10_state.md rule R20). -/
def writeCmd (s : State) (v : Word) : Host.Outcome State Fault Refusal :=
  match decode v with
  | .cmd i => exec i s
  | .illegal _ => issueIllegal s

/-- A host write to a named register; read-only registers ignore it (20_memory.md rule R44). -/
def writeReg (s : State) (r : RegName) (v : Word) : Host.Outcome State Fault Refusal :=
  match r with
  | .cmd => writeCmd s v
  | .srcLo => writeOperand s (s.setSrc (wireSrc s.params (setLowHalf (srcOf s) v)))
  | .srcHi => writeOperand s (s.setSrc (wireSrc s.params (setHighHalf (srcOf s) v)))
  | .lenLo => writeOperand s (s.setLen (setLowHalf s.len v))
  | .lenHi => writeOperand s (s.setLen (setHighHalf s.len v))
  | .status | .hWord _ | .vWord _ | .digestWord _ | .mWord _ | .wWord _ => .next s

/-- A host write at an offset of the window; a reserved offset ignores it (20_memory.md rule R45). -/
def writeOffset (s : State) (off : Nat) (v : Word) : Host.Outcome State Fault Refusal :=
  match regAt off with
  | some r => writeReg s r v
  | none => .next s

/-- A host access for writing (60_exceptions.md rule R111): BUS_FORM first (rule R109). -/
def hostWrite (s : State) (addr size : Nat) (v : Word) : Host.Outcome State Fault Refusal :=
  match windowOffset s addr size with
  | some off => writeOffset s off v
  | none => .fault .busForm

/-- A host access for reading (60_exceptions.md rule R111): BUS_FORM first (rule R109). -/
def hostRead (s : State) (addr size : Nat) : Host.Outcome State Fault Refusal :=
  match windowOffset s addr size with
  | some off => readOffset s off
  | none => .fault .busForm

/-- `HostMemWrite(addr, 1, v)` (20_memory.md rule R36): a race inside SPAN while busy, else the write (60_exceptions.md rules
R108 and R111). DESIGN CHOICE (log 11): where `MEM` admits no such address there is no memory to take the byte, no read
could ever return it, and the write leaves the state as it is. -/
def hostMemWrite (s : State) (addr : Nat) (v : Byte) : Host.Outcome State Fault Refusal :=
  if s.status.busy = true ∧ s.span.has addr = true then .fault .hostRace
  else if admits s.params addr then .next (s.setMem (Memory.set s.mem addr v))
  else .next s

/-- One poll of the host's `wait` loop (30_encoding.md rule R56): read STATUS; while BUSY is 1, give the engine a turn and
poll again. The interleaving is the model's (log 13). -/
def hostWait (s : State) : Host.Outcome State Fault Refusal :=
  if s.status.busy then
    .next ((logRead s s.status.toWord).setScript (.engine :: .host .wait :: s.script))
  else .next (logRead s s.status.toWord)

/-- One host operation. -/
def hostStep (op : HostOp) (s : State) : Host.Outcome State Fault Refusal :=
  match op with
  | .wr addr size v => hostWrite s addr size v
  | .rd addr size => hostRead s addr size
  | .memw addr v => hostMemWrite s addr v
  | .wait => hostWait s

/-- One move of a run (40_command_protocol.md rule R57). -/
def runEvent (e : Event) (s : State) : Host.Outcome State Fault Refusal :=
  match e with
  | .host op => hostStep op s
  | .engine => engineTurn s
  | .reset => .next (resetCore s)

/-- The host operation that presents a command word: a 32-bit write at CMD. -/
def presentWord (s : State) (v : Word) : Event := .host (.wr (s.params.regBase + RegName.cmd.offset) 4 v)

end Sys2Proof.Machine
end

