-- ==== Sys2Proof/Machine/Step.lean ====
section
/-! DEFINITION. One step of a run (40_command_protocol.md rule R57): the next move of the script, or, when nothing is
scheduled, the engine's turn (log 1). A state with a fault record admits no step (60_exceptions.md rules R103, R110). -/

namespace Sys2Proof.Machine

/-- One step. -/
def step (s : State) : Host.Outcome State Fault Refusal :=
  match s.faultRecord with
  | some f => .fault f
  | none =>
    match s.script with
    | [] => engineTurn s
    | e :: rest => runEvent e (s.setScript rest)

/-- `s` with a command word as the next move: the core fetches nothing, a command arrives as a host write to CMD
(20_memory.md rule R40; log 18). -/
def State.withFetchWord (s : State) (nbits w : Nat) : State :=
  s.setScript (presentWord s (BitVec.ofNat 32 (w % 2 ^ nbits)) :: s.script)

end Sys2Proof.Machine
end

