-- ==== Sys2Proof/Machine/Expansion.lean ====
section
/-! DEFINITION. The tables of 40_command_protocol.md over all commands: the expansion (rule R63), the contract check (rule
R59) and the span (10_state.md rule R25). Claims are stated with them; each meaning carries its own row. -/

namespace Sys2Proof.Machine

/-- `expand(X, SRC, LEN)` (rule R63). -/
def expansion (i : Instr) (s : State) : List MicroStep :=
  match i with
  | .nop => []
  | .init => [.uInit]
  | .loadblk => [.uLoad (srcAddr s)]
  | .schedw k => [.uSched (idxOf k)]
  | .expand => schedSteps
  | .vinit => [.uVinit]
  | .round k => [.uRound (idxOf k)]
  | .compress => compressSteps
  | .fold => [.uFold]
  | .padtail t => [.uPad (if t = 0#6 then 0 else 1)]
  | .serialize => [.uSer]
  | .block => blkSteps
  | .compute => computeSteps (srcAddr s) (lenOf s)

/-- `check_contract(X)` (rule R59). -/
def contractOf (i : Instr) (s : State) : Option Fault :=
  match i with
  | .loadblk => if 2 ^ s.params.addrW < srcAddr s + 64 then some .contractAddr else none
  | .padtail _ | .compute =>
    if 2 ^ 61 ≤ lenOf s then some .contractLen
    else if 2 ^ s.params.addrW < srcAddr s + lenOf s then some .contractAddr
    else none
  | .nop | .init | .schedw _ | .expand | .vinit | .round _ | .compress | .fold | .serialize | .block => none

/-- `span(X, SRC, LEN)` (10_state.md rule R25). -/
def spanOf (i : Instr) (s : State) : Span :=
  match i with
  | .loadblk => { base := srcAddr s, size := 64 }
  | .padtail _ | .compute => { base := srcAddr s, size := lenOf s }
  | .nop | .init | .schedw _ | .expand | .vinit | .round _ | .compress | .fold | .serialize | .block => Span.empty

end Sys2Proof.Machine
end

