-- ==== Sys2Proof/Machine/HostProgram.lean ====
section
/-! DEFINITION. Host programs (30_encoding.md section 4): the primitive operations, the pseudo-operations with their
expansions, and the text they are written in. They are notation for the moves of `State.script`; they add no behaviour
(92_eei_decisions.md D23). -/

namespace Sys2Proof.Machine

open Sys2Proof.Config

/-- A line of a host program (rules R55 and R56). A command written alone, `OP [i]`, is the line `cmd OP, i`. -/
inductive Line where
  | wr (r : RegName) (v : Nat)
  | rd (r : RegName)
  | memw (addr : Nat) (bytes : List Byte)
  | cmd (op i : Nat)
  | wait
  | setsrc (a : Nat)
  | setlen (n : Nat)
  | sha256 (a n : Nat)
  | rddigest
deriving DecidableEq, Repr

/-- `wr NAME, value`: a 32-bit write at `REG_BASE + offset(NAME)` (rule R55). -/
def wrEvent (p : Params) (r : RegName) (v : Word) : Event := .host (.wr (p.regBase + r.offset) 4 v)

/-- `rd NAME`: a 32-bit read at `REG_BASE + offset(NAME)` (rule R55). -/
def rdEvent (p : Params) (r : RegName) : Event := .host (.rd (p.regBase + r.offset) 4)

/-- `memw addr, b0, b1, ...`: one byte write per byte, at `addr`, `addr+1`, ... (rule R55). -/
def memwEvents : Nat → List Byte → List Event
  | _, [] => []
  | addr, b :: rest => .host (.memw addr b) :: memwEvents (addr + 1) rest

/-- `cmd OP, i`: `wr CMD, (i << 8) or OP` (rule R56). -/
def cmdEvents (p : Params) (op i : Nat) : List Event := [wrEvent p .cmd (BitVec.ofNat 32 ((i <<< 8) ||| op))]

/-- `setsrc a` (rule R56). -/
def setsrcEvents (p : Params) (a : Nat) : List Event :=
  [wrEvent p .srcLo (lowHalf (BitVec.ofNat 64 a)), wrEvent p .srcHi (highHalf (BitVec.ofNat 64 a))]

/-- `setlen n` (rule R56). -/
def setlenEvents (p : Params) (n : Nat) : List Event :=
  [wrEvent p .lenLo (lowHalf (BitVec.ofNat 64 n)), wrEvent p .lenHi (highHalf (BitVec.ofNat 64 n))]

/-- The host operations of a line. -/
def Line.events (p : Params) : Line → List Event
  | .wr r v => [wrEvent p r (BitVec.ofNat 32 v)]
  | .rd r => [rdEvent p r]
  | .memw addr bytes => memwEvents addr bytes
  | .cmd op i => cmdEvents p op i
  | .wait => [.host .wait]
  | .setsrc a => setsrcEvents p a
  | .setlen n => setlenEvents p n
  | .sha256 a n => setsrcEvents p a ++ setlenEvents p n ++ cmdEvents p 0xC 0 ++ [.host .wait]
  | .rddigest => (List.finRange 8).map fun k => rdEvent p (.digestWord k)

/-- The line of a command written by its mnemonic and operand (rule R56). -/
def commandLine (i : Instr) : Line := .cmd i.opcode.toNat i.idx.toNat

/-- The host operations of a program, in order. -/
def programEvents (p : Params) (prog : List Line) : List Event := prog.flatMap (Line.events p)

/-- A machine whose host is about to run a program. -/
def State.withProgram (s : State) (prog : List Line) : State := s.setScript (s.script ++ programEvents s.params prog)

/-! ## The text of a program (rule R55), as character codes; the lexical details are log 23. -/

/-- A token of a line: a word in capitals, a quoted text as it stands, or a text whose closing quote is missing. -/
inductive Token where
  | word (codes : List Nat)
  | text (codes : List Nat)
  | openText
deriving DecidableEq, Repr

/-- Mnemonics are case-insensitive (rule R55): letters become capitals. -/
def capital (c : Nat) : Nat := if 97 ≤ c ∧ c ≤ 122 then c - 32 else c

/-- The word collected so far, last code first, as a token. -/
def endWord (cur : List Nat) : List Token := if cur = [] then [] else [.word cur.reverse]

/-- Split a line: 59 is `;` (a comment follows), 34 is the quote, 44, 32, 9 and 13 separate words. DESIGN CHOICE (log 23): a
`;` inside a quoted text is a character of the text and starts no comment; and every unquoted word is folded to capitals, so
that register names are case-insensitive as rule R55 says of mnemonics. -/
def tokens : List Nat → List Nat → Bool → List Token
  | [], cur, false => endWord cur
  | [], _, true => [.openText]
  | c :: rest, cur, true => if c = 34 then .text cur.reverse :: tokens rest [] false else tokens rest (c :: cur) true
  | c :: rest, cur, false =>
    if c = 59 then endWord cur
    else if c = 34 then endWord cur ++ tokens rest [] true
    else if c = 44 ∨ c = 32 ∨ c = 9 ∨ c = 13 then endWord cur ++ tokens rest [] false
    else tokens rest (capital c :: cur) false

/-- The value of a digit in a base. -/
def digitValue (base c : Nat) : Option Nat :=
  let d := if 48 ≤ c ∧ c ≤ 57 then c - 48 else if 65 ≤ c ∧ c ≤ 70 then c - 55 else base
  if d < base then some d else none

/-- The value of a run of digits after `acc`. -/
def digitsValue (base : Nat) : List Nat → Nat → Option Nat
  | [], acc => some acc
  | c :: rest, acc =>
    match digitValue base c with
    | some d => digitsValue base rest (acc * base + d)
    | none => none

/-- A number: decimal, or hexadecimal after `0x` (48, 88). -/
def numberOf : List Nat → Option Nat
  | [] => none
  | 48 :: 88 :: c :: rest => digitsValue 16 (c :: rest) 0
  | c :: rest => digitsValue 10 (c :: rest) 0

/-- The codes of a name. -/
def codesOf (name : String) : List Nat := name.toList.map Char.toNat

/-- A numbered register: a prefix, then a decimal index below `n`. DESIGN CHOICE (log 23): leading zeros are allowed, so `H00`
is `H0`. -/
def indexed (n : Nat) (prefixCodes word : List Nat) : Option (Fin n) :=
  if word.take prefixCodes.length = prefixCodes then
    match digitsValue 10 (word.drop prefixCodes.length) 0 with
    | some k => if h : word.drop prefixCodes.length ≠ [] ∧ k < n then some ⟨k, h.2⟩ else none
    | none => none
  else none

/-- A register name of 20_memory.md rule R42; `A` to `H` are other names of V0 to V7. -/
def regOfWord (word : List Nat) : Option RegName :=
  if word = codesOf "CMD" then some .cmd
  else if word = codesOf "STATUS" then some .status
  else if word = codesOf "SRC_LO" then some .srcLo
  else if word = codesOf "SRC_HI" then some .srcHi
  else if word = codesOf "LEN_LO" then some .lenLo
  else if word = codesOf "LEN_HI" then some .lenHi
  else
    match word with
    | [c] => if h : 65 ≤ c ∧ c ≤ 72 then some (.vWord ⟨c - 65, by omega⟩) else none
    | _ =>
      (((indexed 8 (codesOf "H") word).map RegName.hWord <|> (indexed 8 (codesOf "V") word).map RegName.vWord) <|>
        ((indexed 8 (codesOf "DIGEST") word).map RegName.digestWord <|>
          (indexed 16 (codesOf "MWORD") word).map RegName.mWord)) <|>
        (indexed 64 (codesOf "W") word).map RegName.wWord

/-- The opcode of a mnemonic (rule R51). -/
def opcodeOfWord (word : List Nat) : Option Nat :=
  (["NOP", "INIT", "LOADBLK", "SCHEDW", "EXPAND", "VINIT", "ROUND", "COMPRESS", "FOLD", "PADTAIL", "SERIALIZE", "BLOCK",
    "COMPUTE"].map codesOf).findIdx? (· = word)

/-- The numbers of a list of tokens. -/
def numbersOf : List Token → Option (List Nat)
  | [] => some []
  | .word cs :: rest =>
    match numberOf cs, numbersOf rest with
    | some n, some ns => some (n :: ns)
    | _, _ => none
  | .text _ :: _ => none
  | .openText :: _ => none

/-- The bytes of `memw`: numbers, each below 256, or one quoted ASCII text (rule R55). DESIGN CHOICE (log 23): there may be
none, and the line then holds no operation. -/
def memwBytes : List Token → Option (List Byte)
  | [.text cs] => if cs.all (· < 128) then some (cs.map (BitVec.ofNat 8)) else none
  | ts =>
    match numbersOf ts with
    | some ns => if ns.all (· < 256) then some (ns.map (BitVec.ofNat 8)) else none
    | none => none

/-- A line whose arguments are numbers. The operand of a command written alone may be any number, as in `cmdLine` (log 23). -/
def numericLine (name : List Nat) (ns : List Nat) : Option Line :=
  match opcodeOfWord name, ns with
  | some op, [] => some (.cmd op 0)
  | some op, [i] => some (.cmd op i)
  | some _, _ => none
  | none, ns =>
    if name = codesOf "WAIT" then (match ns with | [] => some .wait | _ => none)
    else if name = codesOf "SETSRC" then (match ns with | [a] => some (.setsrc a) | _ => none)
    else if name = codesOf "SETLEN" then (match ns with | [n] => some (.setlen n) | _ => none)
    else if name = codesOf "SHA256" then (match ns with | [a, n] => some (.sha256 a n) | _ => none)
    else if name = codesOf "RDDIGEST" then (match ns with | [] => some .rddigest | _ => none)
    else none

/-- `cmd OP [, i]` (rule R56). DESIGN CHOICE (log 23): `OP` is spelled as a mnemonic or as any number, one that is no opcode of
rule R51 included, and `i` as any number; the word they make may be an illegal one, which CMD rejects (rule R52). -/
def cmdLine (op : List Nat) (args : List Token) : Option Line :=
  match (opcodeOfWord op <|> numberOf op), numbersOf args with
  | some o, some [] => some (.cmd o 0)
  | some o, some [i] => some (.cmd o i)
  | _, _ => none

/-- The line a list of tokens spells; nothing where it spells none. -/
def lineOfTokens : List Token → Option Line
  | .word name :: args =>
    if name = codesOf "WR" then
      match args with
      | [.word r, .word v] =>
        match regOfWord r, numberOf v with
        | some reg, some n => some (.wr reg n)
        | _, _ => none
      | _ => none
    else if name = codesOf "RD" then
      match args with
      | [.word r] => (regOfWord r).map Line.rd
      | _ => none
    else if name = codesOf "MEMW" then
      match args with
      | .word a :: rest =>
        match numberOf a, memwBytes rest with
        | some addr, some bytes => some (.memw addr bytes)
        | _, _ => none
      | _ => none
    else if name = codesOf "CMD" then
      match args with
      | .word op :: rest => cmdLine op rest
      | _ => none
    else
      match numbersOf args with
      | some ns => numericLine name ns
      | none => none
  | _ => none

/-- One line of text: no operation where it is empty or a comment, nothing where it spells none. -/
def parseLine (codes : List Nat) : Option (List Line) :=
  match tokens codes [] false with
  | [] => some []
  | ts => (lineOfTokens ts).map fun l => [l]

/-- Split a text at its line ends (code 10). -/
def linesOf : List Nat → List Nat → List (List Nat)
  | [], cur => [cur.reverse]
  | c :: rest, cur => if c = 10 then cur.reverse :: linesOf rest [] else linesOf rest (c :: cur)

/-- The lines of a program, or nothing where one of them spells no operation. -/
def parseLines : List (List Nat) → Option (List Line)
  | [] => some []
  | l :: rest =>
    match parseLine l, parseLines rest with
    | some xs, some ys => some (xs ++ ys)
    | _, _ => none

/-- A program from its text. -/
def parseProgram (codes : List Nat) : Option (List Line) := parseLines (linesOf codes [])

end Sys2Proof.Machine
end

