-- ==== Sys2Proof/Safety.lean ====
section
/-! DEFINITION. What claims are about: final, faulted and stuck states, and the invariant of the machine. -/

namespace Sys2Proof.Machine

/-- A final state (40_command_protocol.md rule R66): idle, no model fault recorded, no further host access. DESIGN CHOICE
(log 24): no move of any kind is still scheduled, a reset or an engine turn included. -/
abbrev Final (s : State) : Prop := s.status.busy = false ∧ s.faultRecord = none ∧ s.script = []

/-- A faulted state (60_exceptions.md rule R103). -/
abbrev Faulted (s : State) : Prop := s.faultRecord ≠ none

/-- A stuck engine (60_exceptions.md rule R107): busy, with a head micro-step whose memory read is not admitted. -/
def Stuck (s : State) : Bool :=
  s.status.busy &&
    (match s.q with
     | [] => false
     | u :: _ => decide (perform u s = .stuck))

/-- What a run of one command leaves when the engine alone moves: the datapath of `x`, STATUS with DONE alone (acceptance
and completion, 40_command_protocol.md rules R58 and R65), `Q` and `SPAN` empty, all else as in `x`. -/
def finished (x : State) : State :=
  { x with
    status := { busy := false, done := true, err := false, errCode := .none }
    q := []
    span := Span.empty }

/-- The memory reads of a queued micro-step lie inside `SPAN`, and the message of a queued `uPAD` obeys the contract
(10_state.md rule R25, 40_command_protocol.md rule R59). -/
def MicroStep.Within (s : State) : MicroStep → Prop
  | .uLoad addr => s.span.base ≤ addr ∧ addr + 64 ≤ s.span.base + s.span.size
  | .uPad _ => s.span = messageSpan s ∧ lenOf s < 2 ^ 61
  | .uInit | .uSched _ | .uVinit | .uRound _ | .uFold | .uSer => True

/-- STATUS: BUSY and DONE are never both 1, and ERRCODE is 0 while ERR is 0 (10_state.md rule R21). -/
abbrev Status.Ok (st : Status) : Prop := ¬(st.busy = true ∧ st.done = true) ∧ (st.err = false → st.errCode = .none)

/-- The invariant of the machine. -/
structure Inv (s : State) : Prop where
  /-- `ADDR_W` is 1 to 64 (00_scope.md section 3). -/
  params : s.params.Ok
  /-- The memory is in canonical form. -/
  memWf : Memory.wf s.mem = true
  /-- Bytes stand only where `MEM` admits the address (20_memory.md rule R28). -/
  memAdmitted : ∀ c ∈ s.mem, admits s.params c.1 = true
  /-- The hard-wired bits of `SRC` are 0 (10_state.md rule R22). -/
  srcWired : s.src.toNat < 2 ^ s.params.addrW
  status : s.status.Ok
  /-- `Q` and `SPAN` are empty while idle (10_state.md rules R24, R25). -/
  idle : s.status.busy = false → s.q = [] ∧ s.span = Span.empty
  /-- `SPAN` lies in the address space (20_memory.md rule R33). -/
  spanFits : s.span.base + s.span.size ≤ 2 ^ s.params.addrW
  /-- The engine reads inside `SPAN` only (10_state.md rule R25). -/
  within : ∀ u ∈ s.q, MicroStep.Within s u

end Sys2Proof.Machine
end

