-- ==== Sys2Proof/Certificates/Slice0/Obligations.lean ====
section
/-! DEFINITION. The statements for the provers. Every statement about every state holds in states no run reaches too. -/

open Sys2Proof
open Sys2Proof.Machine

/-! ## Encoding (30_encoding.md) -/

/-- A word decodes to a command exactly when the command is well formed and the word is its encoding: no bit of a legal word
is dropped, and every legal word has one meaning. -/
def Obligations.DecodeEncodeAgree : Prop :=
  ∀ (v : Word) (i : Instr), decode v = .cmd i ↔ i.WellFormed = true ∧ encode i = v

/-- A word spells a command of a row exactly when it agrees with the row's mask and match columns; the rows exclude each
other; and there are 140 legal words. -/
def Obligations.LegalWordsMatchOpcodeTable : Prop :=
  (∀ (v : Word) (i : Instr), (∃ j, decode v = .cmd j ∧ j.opcode = i.opcode) ↔ v &&& i.mask = i.pattern) ∧
    (∀ (v : Word) (i j : Instr), v &&& i.mask = i.pattern → v &&& j.mask = j.pattern → i.opcode = j.opcode) ∧
    ∃ l : List Word, l.Nodup ∧ l.length = 140 ∧ ∀ v, v ∈ l ↔ ∃ i, decode v = .cmd i

/-- Which words are illegal, by the fields `OP = v mod 16`, `RSV0`, `IDX`, `RSV1`; and what writing one to CMD does. -/
def Obligations.IllegalWordsAreRejected : Prop :=
  (∀ v : Word, (∃ why, decode v = .illegal why) ↔
    (13 ≤ v.toNat % 16 ∨ v.toNat / 16 % 16 ≠ 0 ∨ v.toNat / 2 ^ 14 ≠ 0 ∨
      (v.toNat % 16 ≠ 3 ∧ v.toNat % 16 ≠ 6 ∧ v.toNat % 16 ≠ 9 ∧ v.toNat / 256 % 64 ≠ 0) ∨
      (v.toNat % 16 = 9 ∧ 1 < v.toNat / 256 % 64))) ∧
    (∀ (s : State) (v : Word) (why : Illegal), decode v = .illegal why → s.status.busy = false →
      hostWrite s (s.params.regBase + 0x000) 4 v = .next { s with status := { s.status with err := true, errCode := .illegalCmd } }) ∧
    ∀ (s : State) (v : Word) (why : Illegal), decode v = .illegal why → s.status.busy = true →
      hostWrite s (s.params.regBase + 0x000) 4 v = .next { s with status := { s.status with err := true, errCode := .cmdWhileBusy } }

/-- The words of 95_test_vectors.md L2.8 and one word of every other command. -/
def Obligations.SampleWordsDecode : Prop :=
  decode 0x00000000#32 = .cmd .nop ∧ decode 0x00000001#32 = .cmd .init ∧ decode 0x00000002#32 = .cmd .loadblk ∧
    decode 0x00001003#32 = .cmd (.schedw 16#6) ∧ decode 0x00000004#32 = .cmd .expand ∧
    decode 0x00000005#32 = .cmd .vinit ∧ decode 0x00000006#32 = .cmd (.round 0#6) ∧
    decode 0x00003f06#32 = .cmd (.round 63#6) ∧ decode 0x00000007#32 = .cmd .compress ∧
    decode 0x00000008#32 = .cmd .fold ∧ decode 0x00000009#32 = .cmd (.padtail 0#6) ∧
    decode 0x00000109#32 = .cmd (.padtail 1#6) ∧ decode 0x0000000a#32 = .cmd .serialize ∧
    decode 0x0000000b#32 = .cmd .block ∧ decode 0x0000000c#32 = .cmd .compute

/-! ## Steps, faults and reset -/

/-- A step whose next move is a host write of a legal word to CMD runs that command on the state with the move taken out of
the script; so does a step after a word has been placed with `withFetchWord`. That the environment's moves stand in a script
is the model's choice (logs 1 and 18). -/
def Obligations.StepRunsDecodedCommand : Prop :=
  (∀ (s : State) (v : Word) (i : Instr) (rest : List Event), s.faultRecord = none →
    s.script = .host (.wr (s.params.regBase + 0x000) 4 v) :: rest → decode v = .cmd i →
    step s = exec i { s with script := rest }) ∧
    ∀ (s : State) (w : Nat) (i : Instr), s.faultRecord = none → decodeTableWord 32 w = some i →
      step (s.withFetchWord 32 w) = exec i s

/-- What a step does when no fault is recorded: the next move of the script, or the engine's turn where there is none. The
script is the model's choice (log 1). -/
def Obligations.StepMakesScheduledMove : Prop :=
  ∀ s : State, s.faultRecord = none →
    (s.script = [] → step s = engineTurn s) ∧
    (∀ rest, s.script = .engine :: rest → step s = engineTurn { s with script := rest }) ∧
    (∀ rest, s.script = .reset :: rest → step s = .next (resetCore { s with script := rest })) ∧
    ∀ op rest, s.script = .host op :: rest → step s = hostStep op { s with script := rest }

/-- A recorded model fault is never cleared, neither by a step nor by a reset, and admits no next state, whatever comes next.
That a state which holds a record answers a step with that fault is the model's choice (log 9). -/
def Obligations.FaultRecordIsNeverCleared : Prop :=
  (∀ (s : State) (f : Fault), step (recordFault s f) = .fault f) ∧
    (∀ (s : State) (f : Fault), (resetCore (recordFault s f)).faultRecord = some f) ∧
    ∀ s t : State, step s = .next t → t.faultRecord = s.faultRecord

/-- Reset, idle or busy, whatever comes next in the script (power-on is a reset): every register at its reset value, the command in flight
abandoned; the input memory, the parameters and the fault record stay. `IV` and `K` are constants of the model, which no
state holds. -/
def Obligations.ResetEventValues : Prop :=
  runEvent .reset State.reset = .next State.reset ∧ ∀ s : State, ∃ t, runEvent .reset s = .next t ∧
    t.status.toWord = 0x00000000#32 ∧ t.src = 0#64 ∧ t.len = 0#64 ∧ t.q = [] ∧ t.span.size = 0 ∧
    (∀ j : Fin 8, t.h.valid[j] = false ∧ t.v.valid[j] = false) ∧
    (∀ j : Fin 64, t.w.valid[j] = false ∧ t.m.valid[j] = false) ∧
    (∀ j : Fin 32, t.d.valid[j] = false) ∧
    t.mem = s.mem ∧ t.params = s.params ∧ t.faultRecord = s.faultRecord

/-- After a reset no datapath register can be read and DONE is 0, whatever the engine had written. -/
def Obligations.ResetForgetsDatapath : Prop :=
  ∀ (s : State) (r : RegName), r.isDatapath = true →
    readReg (resetCore s) r = .fault .uninitRead ∧ (resetCore s).status.done = false

/-- The power-on state: STATUS, SRC and LEN 0, nothing queued, every valid bit clear. That no fault is recorded there is the
model's choice (log 9): the spec has a reset leave the record as it is. -/
def Obligations.PowerOnState : Prop :=
  State.reset.status.toWord = 0x00000000#32 ∧ State.reset.src = 0#64 ∧ State.reset.len = 0#64 ∧ State.reset.q = [] ∧
    State.reset.span.size = 0 ∧ State.reset.faultRecord = none ∧
    (∀ j : Fin 8, State.reset.h.valid[j] = false ∧ State.reset.v.valid[j] = false) ∧
    (∀ j : Fin 64, State.reset.w.valid[j] = false ∧ State.reset.m.valid[j] = false) ∧
    ∀ j : Fin 32, State.reset.d.valid[j] = false

/-! ## Words, codec and padding -/

/-- Right rotation: the formula, and where each bit goes; and the shift of the schedule functions, which is logical by
00_scope.md rule R9's reading, supplied there from general knowledge (log 19, PRESUMED). -/
def Obligations.RotateAndShiftBits : Prop :=
  (∀ (v : Word) (n : Nat), 0 < n → n < 32 →
    rotr v n = ((v >>> n) ||| (v <<< (32 - n))) ∧
      ∀ k, k < 32 → (rotr v n).getLsbD k = v.getLsbD ((k + n) % 32)) ∧
    ∀ (v : Word) (n : Nat), (shr v n).toNat = v.toNat / 2 ^ n

/-- The four mixing functions, their formulas and the values at 0, at all ones and at 1. The formulas' logical shift and bitwise
`xor` are read as log 19 says (PRESUMED); the values are the rules' own. -/
def Obligations.MixingFunctions : Prop :=
  (∀ x : Word, sigma0 x = rotr x 7 ^^^ rotr x 18 ^^^ (x >>> 3) ∧ sigma1 x = rotr x 17 ^^^ rotr x 19 ^^^ (x >>> 10) ∧
    bigSigma1 x = rotr x 6 ^^^ rotr x 11 ^^^ rotr x 25 ∧ bigSigma0 x = rotr x 2 ^^^ rotr x 13 ^^^ rotr x 22) ∧
    (sigma0 0#32 = 0#32 ∧ sigma1 0#32 = 0#32 ∧ bigSigma1 0#32 = 0#32 ∧ bigSigma0 0#32 = 0#32) ∧
    (sigma0 0xFFFFFFFF#32 = 0x1FFFFFFF#32 ∧ sigma1 0xFFFFFFFF#32 = 0x003FFFFF#32 ∧
      bigSigma1 0xFFFFFFFF#32 = 0xFFFFFFFF#32 ∧ bigSigma0 0xFFFFFFFF#32 = 0xFFFFFFFF#32) ∧
    sigma0 1#32 = 0x02004000#32 ∧ sigma1 1#32 = 0x0000A000#32 ∧ bigSigma1 1#32 = 0x04200080#32 ∧
      bigSigma0 1#32 = 0x40080400#32

/-- `Ch` selects by the bits of `e`; `Maj` is the bitwise majority. That `and`, `xor` and `not` act bit by bit is 00_scope.md rule
R10's reading, supplied there from general knowledge (log 19, PRESUMED). -/
def Obligations.ChoiceAndMajorityBits : Prop :=
  (∀ (e f g : Word) (k : Nat), k < 32 → (ch e f g).getLsbD k = if e.getLsbD k then f.getLsbD k else g.getLsbD k) ∧
    ∀ (a b c : Word) (k : Nat), k < 32 →
      ((maj a b c).getLsbD k = true ↔ 2 ≤ (a.getLsbD k).toNat + (b.getLsbD k).toNat + (c.getLsbD k).toNat)

/-- `load_be32` as a number, and where it reads an unwritten byte. -/
def Obligations.LoadIsBigEndian : Prop :=
  (∀ (n : Nat) (buf : Vector Byte n) (o : Nat) (ho : o + 3 < n),
    (loadBe32 buf o ho).toNat =
      buf[o].toNat * 2 ^ 24 + buf[o + 1].toNat * 2 ^ 16 + buf[o + 2].toNat * 2 ^ 8 + buf[o + 3].toNat) ∧
    ∀ (n : Nat) (f : RegFile 8 n) (o : Nat) (ho : o + 3 < n),
      (f.load32 o ho = none ↔ f.valid[o] = false ∨ f.valid[o + 1] = false ∨ f.valid[o + 2] = false ∨
        f.valid[o + 3] = false) ∧
      (f.load32 o ho ≠ none → f.load32 o ho = some (loadBe32 f.bits o ho))

/-- `store_be32` and `store_be64`, byte by byte: the stored bytes, their valid bits, and every other byte as it was. -/
def Obligations.StoreIsBigEndian : Prop :=
  (∀ (n : Nat) (f : RegFile 8 n) (o : Nat) (v : Word) (j : Nat) (hj : j < n),
    ((f.store32 o v).bits[j] = if o ≤ j ∧ j < o + 4 then BitVec.ofNat 8 (v.toNat / 2 ^ (8 * (3 - (j - o)))) else f.bits[j]) ∧
      ((f.store32 o v).valid[j] = if o ≤ j ∧ j < o + 4 then true else f.valid[j])) ∧
    ∀ (n : Nat) (buf : Vector Byte n) (o : Nat) (v : DWord) (j : Nat) (hj : j < n),
      (storeBe64 buf o v)[j] = if o ≤ j ∧ j < o + 8 then BitVec.ofNat 8 (v.toNat / 2 ^ (8 * (7 - (j - o)))) else buf[j]

/-- A load after a store gives the word stored, and storing back a loaded word changes nothing. -/
def Obligations.CodecRoundTrip : Prop :=
  ∀ (n : Nat) (buf : Vector Byte n) (o : Nat) (ho : o + 3 < n),
    (∀ v : Word, loadBe32 (storeBe32 buf o v) o ho = v) ∧ storeBe32 buf o (loadBe32 buf o ho) = buf

/-- The bit length of a legal length is exact and is `LEN << 3`. -/
def Obligations.BitLengthIsExact : Prop :=
  ∀ x : DWord, x.toNat < 2 ^ 61 → (bitLength x.toNat).toNat = x.toNat * 8 ∧ bitLength x.toNat = x <<< 3

/-- How many blocks a message has. -/
def Obligations.BlockCountFormula : Prop :=
  ∀ (msg : Nat → Byte) (L : Nat),
    (blocks msg L).length = (L + 8) / 64 + 1 ∧
      (blocks msg L).length = if L % 64 < 56 then L / 64 + 1 else L / 64 + 2

/-- The padded message, as many blocks as the tail needs, byte by byte: byte `j` of block `b` is the message's byte, or `0x80` after the last one, or a byte of
the big-endian bit length in the last eight, or zero. -/
def Obligations.PaddedMessageBytes : Prop :=
  (∀ (msg : Nat → Byte) (L : Nat), (blocks msg L).length = if L % 64 < 56 then L / 64 + 1 else L / 64 + 2) ∧
    ∀ (msg : Nat → Byte) (L b : Nat) (hb : b < (blocks msg L).length) (j : Nat) (hj : j < 64), L < 2 ^ 61 →
    ((blocks msg L)[b])[j] =
      if 64 * b + j < L then msg (64 * b + j)
      else if 64 * b + j = L then 0x80#8
      else if b + 1 = (blocks msg L).length ∧ 56 ≤ j then BitVec.ofNat 8 (L * 8 / 2 ^ (8 * (63 - j)))
      else 0x00#8

/-! ## The commands, accepted and run to completion by the engine alone -/

/-- NOP changes STATUS alone. -/
def Obligations.NopRuns : Prop :=
  ∀ s : State, s.status.busy = false →
    decode 0x00000000#32 = .cmd .nop ∧ ∃ t, exec .nop s = .next t ∧ engineRun 1 t = .next (finished s)

/-- INIT loads `H` with the eight words of the IV, in every idle state, whatever commands and resets went before. -/
def Obligations.InitRuns : Prop :=
  ∀ s : State, s.status.busy = false →
    decode 0x00000001#32 = .cmd .init ∧
      ∃ t, exec .init s = .next t ∧ engineRun 2 t = .next (finished { s with
        h := RegFile.ofAll #v[0x6a09e667#32, 0xbb67ae85#32, 0x3c6ef372#32, 0xa54ff53a#32,
          0x510e527f#32, 0x9b05688c#32, 0x1f83d9ab#32, 0x5be0cd19#32] })

/-- LOADBLK loads the 64 bytes at `SRC`. -/
def Obligations.LoadblkRuns : Prop :=
  ∀ s : State, s.status.busy = false → srcAddr s + 64 ≤ 2 ^ s.params.addrW → Readable s (srcAddr s) 64 →
    decode 0x00000002#32 = .cmd .loadblk ∧
      ∃ t, exec .loadblk s = .next t ∧
        engineRun 2 t = .next (finished
          { s with m := RegFile.ofAll (Vector.ofFn fun j : Fin 64 => Memory.get s.mem (srcAddr s + j.val)) })

/-- SCHEDW i: below 16 the word of four bytes of `M`; from 16 on the recurrence over four earlier words, whatever `M` holds;
or a fault where a byte or a word it reads is unwritten. -/
def Obligations.SchedwRuns : Prop :=
  ∀ (s : State) (i : Fin 64), s.status.busy = false →
    decode (BitVec.ofNat 32 (i.val * 256 + 3)) = .cmd (.schedw (BitVec.ofFin i)) ∧
      ∃ t, exec (.schedw (BitVec.ofFin i)) s = .next t ∧
        engineRun 2 t =
          if h : i.val < 16 then
            if s.m.valid[4 * i.val] = true ∧ s.m.valid[4 * i.val + 1] = true ∧ s.m.valid[4 * i.val + 2] = true ∧
                s.m.valid[4 * i.val + 3] = true
            then .next (finished { s with w := s.w.set i (loadBe32 s.m.bits (4 * i.val) (by omega)) })
            else .fault .uninitRead
          else
            if s.w.valid[i.val - 16] = true ∧ s.w.valid[i.val - 15] = true ∧ s.w.valid[i.val - 7] = true ∧
                s.w.valid[i.val - 2] = true
            then .next (finished { s with
              w := s.w.set i (s.w.bits[i.val - 16] + sigma0 s.w.bits[i.val - 15] + s.w.bits[i.val - 7] +
                sigma1 s.w.bits[i.val - 2]) })
            else .fault .uninitRead

/-- EXPAND: afterwards the first 16 words are the block's and the others obey the recurrence, every word is written, and
nothing else has changed; or a fault where a byte of `M` is unwritten. -/
def Obligations.ExpandRuns : Prop :=
  ∀ s : State, s.status.busy = false →
    decode 0x00000004#32 = .cmd .expand ∧
      ∃ t, exec .expand s = .next t ∧
        (s.m.Full → ∃ ws : Vector Word 64, engineRun 65 t = .next (finished { s with w := RegFile.ofAll ws }) ∧
          (∀ (i : Nat) (hi : i < 16), ws[i] = loadBe32 s.m.bits (4 * i) (by omega)) ∧
          ∀ (i : Nat) (_ : 16 ≤ i) (hi : i < 64),
            ws[i] = ws[i - 16] + sigma0 ws[i - 15] + ws[i - 7] + sigma1 ws[i - 2]) ∧
        (¬s.m.Full → engineRun 65 t = .fault .uninitRead)

/-- VINIT copies `H` into `V`; or a fault where a word of `H` is unwritten. -/
def Obligations.VinitRuns : Prop :=
  ∀ s : State, s.status.busy = false →
    decode 0x00000005#32 = .cmd .vinit ∧
      ∃ t, exec .vinit s = .next t ∧
        engineRun 2 t =
          if ∀ j : Fin 8, s.h.valid[j] = true then .next (finished { s with v := RegFile.ofAll s.h.bits })
          else .fault .uninitRead

/-- The 64 words of `K`, whose values 10_state.md supplies from general knowledge (log 19, PRESUMED); and ROUND i: the round
function on the old working variables, `K[i]` and `W[i]`; or a fault where one of them is unwritten. -/
def Obligations.RoundRuns : Prop :=
  (List.finRange 64).map roundConstant =
      [0x428a2f98#32, 0x71374491#32, 0xb5c0fbcf#32, 0xe9b5dba5#32, 0x3956c25b#32, 0x59f111f1#32, 0x923f82a4#32, 0xab1c5ed5#32] ++
      [0xd807aa98#32, 0x12835b01#32, 0x243185be#32, 0x550c7dc3#32, 0x72be5d74#32, 0x80deb1fe#32, 0x9bdc06a7#32, 0xc19bf174#32] ++
      [0xe49b69c1#32, 0xefbe4786#32, 0x0fc19dc6#32, 0x240ca1cc#32, 0x2de92c6f#32, 0x4a7484aa#32, 0x5cb0a9dc#32, 0x76f988da#32] ++
      [0x983e5152#32, 0xa831c66d#32, 0xb00327c8#32, 0xbf597fc7#32, 0xc6e00bf3#32, 0xd5a79147#32, 0x06ca6351#32, 0x14292967#32] ++
      [0x27b70a85#32, 0x2e1b2138#32, 0x4d2c6dfc#32, 0x53380d13#32, 0x650a7354#32, 0x766a0abb#32, 0x81c2c92e#32, 0x92722c85#32] ++
      [0xa2bfe8a1#32, 0xa81a664b#32, 0xc24b8b70#32, 0xc76c51a3#32, 0xd192e819#32, 0xd6990624#32, 0xf40e3585#32, 0x106aa070#32] ++
      [0x19a4c116#32, 0x1e376c08#32, 0x2748774c#32, 0x34b0bcb5#32, 0x391c0cb3#32, 0x4ed8aa4a#32, 0x5b9cca4f#32, 0x682e6ff3#32] ++
      [0x748f82ee#32, 0x78a5636f#32, 0x84c87814#32, 0x8cc70208#32, 0x90befffa#32, 0xa4506ceb#32, 0xbef9a3f7#32, 0xc67178f2#32] ∧
  ∀ (s : State) (i : Fin 64), s.status.busy = false →
    decode (BitVec.ofNat 32 (i.val * 256 + 6)) = .cmd (.round (BitVec.ofFin i)) ∧
      ∃ t, exec (.round (BitVec.ofFin i)) s = .next t ∧
        ∀ a b c d e f g h t1 t2 : Word, s.v.bits = #v[a, b, c, d, e, f, g, h] →
          t1 = h + bigSigma1 e + ch e f g + roundConstant i + s.w.bits[i] → t2 = bigSigma0 a + maj a b c →
          engineRun 2 t =
            if (∀ j : Fin 8, s.v.valid[j] = true) ∧ s.w.valid[i] = true
            then .next (finished { s with v := RegFile.ofAll #v[t1 + t2, a, b, c, d + t1, e, f, g] })
            else .fault .uninitRead

/-- COMPRESS: the 64 rounds from `H` with `W`; `H` is unchanged; or a fault where a word of `H` or `W` is unwritten. -/
def Obligations.CompressRuns : Prop :=
  ∀ s : State, s.status.busy = false →
    decode 0x00000007#32 = .cmd .compress ∧
      ∃ t, exec .compress s = .next t ∧
        engineRun 66 t =
          if (∀ j : Fin 8, s.h.valid[j] = true) ∧ ∀ j : Fin 64, s.w.valid[j] = true
          then .next (finished { s with v := RegFile.ofAll ((List.finRange 64).foldl
            (fun v i => roundFn v (roundConstant i) s.w.bits[i]) s.h.bits) })
          else .fault .uninitRead

/-- FOLD adds `V` to `H`; or a fault where a word of either is unwritten. -/
def Obligations.FoldRuns : Prop :=
  ∀ s : State, s.status.busy = false →
    decode 0x00000008#32 = .cmd .fold ∧
      ∃ t, exec .fold s = .next t ∧
        engineRun 2 t =
          if (∀ j : Fin 8, s.h.valid[j] = true) ∧ ∀ j : Fin 8, s.v.valid[j] = true
          then .next (finished { s with h := RegFile.ofAll (Vector.ofFn fun j => s.h.bits[j] + s.v.bits[j]) })
          else .fault .uninitRead

/-- PADTAIL t: tail block `t` of the message at `SRC`, byte by byte, in both its forms; every byte of `M` is written and
nothing else changes. -/
def Obligations.PadtailRuns : Prop :=
  ∀ (s : State) (t : BitVec 6), t.toNat ≤ 1 → s.status.busy = false → lenOf s < 2 ^ 61 →
    srcAddr s + lenOf s ≤ 2 ^ s.params.addrW →
    (t = 0#6 → Readable s (srcAddr s + 64 * (lenOf s / 64)) (lenOf s % 64)) →
    decode (BitVec.ofNat 32 (t.toNat * 256 + 9)) = .cmd (.padtail t) ∧
      ∃ u, exec (.padtail t) s = .next u ∧
        ∃ B : Vector Byte 64, engineRun 2 u = .next (finished { s with m := RegFile.ofAll B }) ∧
          ∀ (j : Nat) (hj : j < 64), B[j] =
            if (t = 1#6 ∨ lenOf s % 64 < 56) ∧ 56 ≤ j then BitVec.ofNat 8 (lenOf s * 8 / 2 ^ (8 * (63 - j)))
            else if t = 1#6 then 0x00#8
            else if j < lenOf s % 64 then Memory.get s.mem (srcAddr s + 64 * (lenOf s / 64) + j)
            else if j = lenOf s % 64 then 0x80#8 else 0x00#8

/-- SERIALIZE writes `H` big-endian into `D`; or a fault where a word of `H` is unwritten. -/
def Obligations.SerializeRuns : Prop :=
  ∀ s : State, s.status.busy = false →
    decode 0x0000000a#32 = .cmd .serialize ∧
      ∃ t, exec .serialize s = .next t ∧
        ((∀ j : Fin 8, s.h.valid[j] = true) →
          ∃ ds : Vector Byte 32, engineRun 2 t = .next (finished { s with d := RegFile.ofAll ds }) ∧
            ∀ (j : Nat) (hj : j < 8), loadBe32 ds (4 * j) (by omega) = s.h.bits[j]) ∧
        (¬(∀ j : Fin 8, s.h.valid[j] = true) → engineRun 2 t = .fault .uninitRead)

/-- BLOCK: `W` is the schedule of the block in `M`, `V` its compression from `H`, and `H` their sum; or a fault where a byte
of `M` or a word of `H` is unwritten. -/
def Obligations.BlockRuns : Prop :=
  ∀ s : State, s.status.busy = false →
    decode 0x0000000b#32 = .cmd .block ∧
      ∃ t, exec .block s = .next t ∧
        engineRun 131 t =
          if (∀ j : Fin 64, s.m.valid[j] = true) ∧ ∀ j : Fin 8, s.h.valid[j] = true
          then .next (finished { s with
            w := RegFile.ofAll (schedule s.m.bits)
            v := RegFile.ofAll (compress s.h.bits (schedule s.m.bits))
            h := RegFile.ofAll (Vector.ofFn fun j =>
              s.h.bits[j] + (compress s.h.bits (schedule s.m.bits))[j]) })
          else .fault .uninitRead

/-- COMPUTE: after `131 * N + 3` engine steps every datapath register holds what rule R99 says, whatever it held before,
and nothing else has changed. -/
def Obligations.ComputeRuns : Prop :=
  ∀ (s : State) (msg : Nat → Byte) (N : Nat), s.status.busy = false → lenOf s < 2 ^ 61 →
    srcAddr s + lenOf s ≤ 2 ^ s.params.addrW → Readable s (srcAddr s) (lenOf s) →
    (∀ n, n < lenOf s → memRead s (srcAddr s + n) = some (msg n)) → N = (lenOf s + 8) / 64 + 1 →
    decode 0x0000000c#32 = .cmd .compute ∧
      ∃ t, exec .compute s = .next t ∧
        ∀ (before : Vector Word 8) (last : Vector Byte 64),
          before = ((blocks msg (lenOf s)).take (N - 1)).foldl
            (fun x B => Vector.ofFn fun j => x[j] + (compress x (schedule B))[j]) iv →
          (blocks msg (lenOf s)).drop (N - 1) = [last] →
          engineRun (131 * N + 3) t = .next (finished { s with
            h := RegFile.ofAll (Vector.ofFn fun j => before[j] + (compress before (schedule last))[j])
            v := RegFile.ofAll (compress before (schedule last))
            w := RegFile.ofAll (schedule last)
            m := RegFile.ofAll last
            d := RegFile.ofAll (serialBytes (Vector.ofFn fun j => before[j] + (compress before (schedule last))[j])) })

/-- The digest is a function of the message bytes and the length alone: two runs of COMPUTE over the same bytes end with the
same `D`, whatever the registers held and wherever the message lies. It covers the runs in which the engine alone moves from
acceptance to completion; that a host operation between its steps touches nothing the command works on is the second clause of
`IdleCoreOnlyAnswersHost`. -/
def Obligations.DigestDependsOnMessageOnly : Prop :=
  ∀ s₁ s₂ : State, s₁.status.busy = false → s₂.status.busy = false → lenOf s₁ < 2 ^ 61 → lenOf s₂ = lenOf s₁ →
    srcAddr s₁ + lenOf s₁ ≤ 2 ^ s₁.params.addrW → srcAddr s₂ + lenOf s₂ ≤ 2 ^ s₂.params.addrW →
    Readable s₁ (srcAddr s₁) (lenOf s₁) → Readable s₂ (srcAddr s₂) (lenOf s₂) →
    (∀ n, n < lenOf s₁ → Memory.get s₁.mem (srcAddr s₁ + n) = Memory.get s₂.mem (srcAddr s₂ + n)) →
    ∃ t₁ t₂ u₁ u₂ k, exec .compute s₁ = .next t₁ ∧ exec .compute s₂ = .next t₂ ∧ engineRun k t₁ = .next u₁ ∧
      engineRun k t₂ = .next u₂ ∧ u₁.status.done = true ∧ u₂.status.done = true ∧ u₁.d.Full ∧ u₁.d = u₂.d

/-! ## Acceptance and rejection (40_command_protocol.md) -/

/-- Acceptance of every command: a write of its word to CMD while idle makes STATUS BUSY alone, `Q` the expansion (the
statement `ExpansionTable` writes it out), `SPAN` the addresses the command may read, and changes nothing else. The
contract, written out: the length of PADTAIL and COMPUTE below 2^61, and every read below `2^ADDR_W`. -/
def Obligations.CommandsAreAccepted : Prop :=
  ∀ (i : Instr) (s : State), i.WellFormed = true → s.status.busy = false →
    (i = .loadblk → srcAddr s + 64 ≤ 2 ^ s.params.addrW) →
    ((i = .compute ∨ ∃ t, i = .padtail t) → lenOf s < 2 ^ 61 ∧ srcAddr s + lenOf s ≤ 2 ^ s.params.addrW) →
    ∃ t, exec i s = .next t ∧ hostWrite s (s.params.regBase + 0x000) 4 (encode i) = .next t ∧
      t = { s with
        status := { busy := true, done := false, err := false, errCode := .none }
        q := expansion i s
        span :=
          match i with
          | .loadblk => { base := srcAddr s, size := 64 }
          | .padtail _ | .compute => { base := srcAddr s, size := lenOf s }
          | .nop | .init | .schedw _ | .expand | .vinit | .round _ | .compress | .fold | .serialize | .block =>
            { base := 0, size := 0 } }

/-- The expansion of every command, written out. -/
def Obligations.ExpansionTable : Prop :=
  ∀ (s : State) (sched rounds blk : List MicroStep) (n R : Nat),
    sched = (List.finRange 64).map MicroStep.uSched → rounds = (List.finRange 64).map MicroStep.uRound →
    blk = sched ++ [.uVinit] ++ rounds ++ [.uFold] → n = lenOf s / 64 → R = lenOf s % 64 →
    expansion .nop s = [] ∧ expansion .init s = [.uInit] ∧ expansion .loadblk s = [.uLoad (srcAddr s)] ∧
      (∀ i : Fin 64, expansion (.schedw (BitVec.ofFin i)) s = [.uSched i]) ∧ expansion .expand s = sched ∧
      expansion .vinit s = [.uVinit] ∧ (∀ i : Fin 64, expansion (.round (BitVec.ofFin i)) s = [.uRound i]) ∧
      expansion .compress s = [.uVinit] ++ rounds ∧ expansion .fold s = [.uFold] ∧
      expansion (.padtail 0#6) s = [.uPad 0] ∧ expansion (.padtail 1#6) s = [.uPad 1] ∧
      expansion .serialize s = [.uSer] ∧ expansion .block s = blk ∧
      expansion .compute s =
        [.uInit] ++ (List.range n).flatMap (fun b => .uLoad (srcAddr s + 64 * b) :: blk) ++ [.uPad 0] ++ blk ++
          (if 56 ≤ R then [.uPad 1] ++ blk else []) ++ [.uSer]

/-- The number of engine steps of an accepted command: its micro-steps and one completion step. -/
def Obligations.EngineStepCounts : Prop :=
  ∀ (s : State) (i : Instr) (t : State), i.WellFormed = true → s.status.busy = false → exec i s = .next t →
    t.q.length + 1 =
      match i with
      | .nop => 1
      | .init | .loadblk | .schedw _ | .vinit | .round _ | .fold | .padtail _ | .serialize => 2
      | .expand => 65
      | .compress => 66
      | .block => 131
      | .compute => 131 * ((lenOf s + 8) / 64 + 1) + 3

/-- The contract checks at acceptance, in their order; no other command faults at acceptance. -/
def Obligations.ContractBreaksFault : Prop :=
  ∀ s : State, s.status.busy = false →
    (2 ^ 61 ≤ lenOf s → exec .compute s = .fault .contractLen ∧
      ∀ t : BitVec 6, t.toNat ≤ 1 → exec (.padtail t) s = .fault .contractLen) ∧
    (2 ^ s.params.addrW < srcAddr s + 64 → exec .loadblk s = .fault .contractAddr) ∧
    (lenOf s < 2 ^ 61 → 2 ^ s.params.addrW < srcAddr s + lenOf s → exec .compute s = .fault .contractAddr ∧
      ∀ t : BitVec 6, t.toNat ≤ 1 → exec (.padtail t) s = .fault .contractAddr) ∧
    ∀ (i : Instr) (f : Fault), exec i s = .fault f →
      (i = .loadblk ∧ 2 ^ s.params.addrW < srcAddr s + 64) ∨
        ((i = .compute ∨ ∃ t, i = .padtail t) ∧ (2 ^ 61 ≤ lenOf s ∨ 2 ^ s.params.addrW < srcAddr s + lenOf s))

/-- While busy any word at CMD is rejected, and the command in flight goes on unchanged. -/
def Obligations.BusyCommandsAreRejected : Prop :=
  ∀ (s : State) (v : Word), s.status.busy = true →
    hostWrite s (s.params.regBase + 0x000) 4 v = .next { s with status := { s.status with err := true, errCode := .cmdWhileBusy } }

/-- Writes to the halves of SRC and LEN: rejected while busy; while idle the half is stored, the bits of SRC from ADDR_W on
staying 0, and STATUS is not touched. So no move but a reset changes SRC or LEN while busy. -/
def Obligations.OperandWrites : Prop :=
  (∀ (s : State) (off : Nat) (v : Word), off = 0x008 ∨ off = 0x00C ∨ off = 0x010 ∨ off = 0x014 → s.status.busy = true →
    hostWrite s (s.params.regBase + off) 4 v =
      .next { s with status := { s.status with err := true, errCode := .writeWhileBusy } }) ∧
    (∀ (e : Event) (s t : State), s.status.busy = true → runEvent e s = .next t → e ≠ .reset →
      t.src = s.src ∧ t.len = s.len) ∧
    ∀ (s : State) (v : Word), s.status.busy = false →
      (∃ x : DWord, hostWrite s (s.params.regBase + 0x008) 4 v = .next { s with src := x } ∧
        x.toNat = (srcAddr s / 2 ^ 32 * 2 ^ 32 + v.toNat) % 2 ^ s.params.addrW) ∧
      (∃ x : DWord, hostWrite s (s.params.regBase + 0x00C) 4 v = .next { s with src := x } ∧
        x.toNat = (v.toNat * 2 ^ 32 + srcAddr s % 2 ^ 32) % 2 ^ s.params.addrW) ∧
      (∃ x : DWord, hostWrite s (s.params.regBase + 0x010) 4 v = .next { s with len := x } ∧
        x.toNat = lenOf s / 2 ^ 32 * 2 ^ 32 + v.toNat) ∧
      ∃ x : DWord, hostWrite s (s.params.regBase + 0x014) 4 v = .next { s with len := x } ∧
        x.toNat = v.toNat * 2 ^ 32 + lenOf s % 2 ^ 32

/-- Writing both halves of SRC, in either order, gives the same state, which holds the address modulo `2^ADDR_W`. -/
def Obligations.SrcHalvesInAnyOrder : Prop :=
  ∀ (s : State) (a : Nat), s.status.busy = false → a < 2 ^ 64 →
    ∃ t₁ t₂ u, hostWrite s (s.params.regBase + 0x008) 4 (BitVec.ofNat 32 a) = .next t₁ ∧
      hostWrite t₁ (s.params.regBase + 0x00C) 4 (BitVec.ofNat 32 (a / 2 ^ 32)) = .next u ∧
      hostWrite s (s.params.regBase + 0x00C) 4 (BitVec.ofNat 32 (a / 2 ^ 32)) = .next t₂ ∧
      hostWrite t₂ (s.params.regBase + 0x008) 4 (BitVec.ofNat 32 a) = .next u ∧
      srcAddr u = a % 2 ^ s.params.addrW ∧ u = { s with src := u.src }

/-- A rejected access sets ERR and its code and changes nothing else, so that the latest code replaces an earlier one; the
rejected accesses are exactly an illegal word at CMD while idle, any word at CMD while busy, and a write to SRC or LEN while
busy; and besides them only the acceptance of a command, which clears both, and reset change ERR or ERRCODE. -/
def Obligations.ErrorLifecycle : Prop :=
  (∀ (s : State) (code : ErrCode),
    rejectAccess s code = { s with status := { s.status with err := true, errCode := code } }) ∧
    ∀ (e : Event) (s t : State), runEvent e s = .next t →
      (t.status.err ≠ s.status.err ∨ t.status.errCode ≠ s.status.errCode) →
      e = .reset ∨
        (∃ v i, e = .host (.wr (s.params.regBase + 0x000) 4 v) ∧ decode v = .cmd i ∧ s.status.busy = false ∧
          t.status = { busy := true, done := false, err := false, errCode := .none }) ∨
        (∃ v why, e = .host (.wr (s.params.regBase + 0x000) 4 v) ∧ decode v = .illegal why ∧ s.status.busy = false ∧
          t = rejectAccess s .illegalCmd) ∨
        (∃ v, e = .host (.wr (s.params.regBase + 0x000) 4 v) ∧ s.status.busy = true ∧
          t = rejectAccess s .cmdWhileBusy) ∨
        ∃ off v, e = .host (.wr (s.params.regBase + off) 4 v) ∧ off ∈ [0x008, 0x00C, 0x010, 0x014] ∧
          s.status.busy = true ∧ t = rejectAccess s .writeWhileBusy

/-! ## The register window and the input memory (20_memory.md) -/

/-- The STATUS word, bit by bit, with the values of the error codes. -/
def Obligations.StatusWordFields : Prop :=
  ∀ st : Status,
    st.toWord.toNat =
      (if st.busy then 1 else 0) + (if st.done then 2 else 0) + (if st.err then 4 else 0) +
        16 * (match st.errCode with | .none => 0 | .illegalCmd => 1 | .cmdWhileBusy => 2 | .writeWhileBusy => 3)

/-- A write to a read-only register is ignored, idle or busy. -/
def Obligations.ReadOnlyWritesAreIgnored : Prop :=
  ∀ (s : State) (off : Nat) (v : Word), off % 4 = 0 →
    off = 0x004 ∨ (0x020 ≤ off ∧ off < 0x0C0) ∨ (0x100 ≤ off ∧ off < 0x200) →
    hostWrite s (s.params.regBase + off) 4 v = .next s

/-- Reads of CMD and of reserved offsets return 0; writes anywhere but at CMD, SRC and LEN, the reserved offsets among them,
are ignored; and a read that answers changes nothing but what the host has read. -/
def Obligations.ReservedOffsetsAndReads : Prop :=
  (∀ (s : State) (off : Nat), off % 4 = 0 →
    off = 0x000 ∨ off = 0x018 ∨ off = 0x01C ∨ (0x0C0 ≤ off ∧ off < 0x100) →
    hostRead s (s.params.regBase + off) 4 = .next { s with readLog := 0x00000000#32 :: s.readLog }) ∧
    (∀ (s : State) (off : Nat) (v : Word), off % 4 = 0 → off < 0x200 → off ∉ [0x000, 0x008, 0x00C, 0x010, 0x014] →
      hostWrite s (s.params.regBase + off) 4 v = .next s) ∧
    ∀ (s t : State) (addr size : Nat), hostRead s addr size = .next t →
      t = { s with readLog := t.readLog, draws := t.draws }

/-- What an idle read of each register returns, or UNINIT_READ where an element it reads is unwritten; STATUS, SRC and LEN
always answer. -/
def Obligations.IdleReads : Prop :=
  ∀ s : State, s.status.busy = false →
    (∀ j : Fin 8, hostRead s (s.params.regBase + (0x020 + 4 * j.val)) 4 =
      if s.h.valid[j] = true then .next (logRead s s.h.bits[j]) else .fault .uninitRead) ∧
    (∀ j : Fin 8, hostRead s (s.params.regBase + (0x040 + 4 * j.val)) 4 =
      if s.v.valid[j] = true then .next (logRead s s.v.bits[j]) else .fault .uninitRead) ∧
    (∀ j : Fin 64, hostRead s (s.params.regBase + (0x100 + 4 * j.val)) 4 =
      if s.w.valid[j] = true then .next (logRead s s.w.bits[j]) else .fault .uninitRead) ∧
    (∀ k : Fin 8, hostRead s (s.params.regBase + (0x060 + 4 * k.val)) 4 =
      if s.d.valid[4 * k.val] = true ∧ s.d.valid[4 * k.val + 1] = true ∧ s.d.valid[4 * k.val + 2] = true ∧
          s.d.valid[4 * k.val + 3] = true
      then .next (logRead s (loadBe32 s.d.bits (4 * k.val) (by omega))) else .fault .uninitRead) ∧
    (∀ k : Fin 16, hostRead s (s.params.regBase + (0x080 + 4 * k.val)) 4 =
      if s.m.valid[4 * k.val] = true ∧ s.m.valid[4 * k.val + 1] = true ∧ s.m.valid[4 * k.val + 2] = true ∧
          s.m.valid[4 * k.val + 3] = true
      then .next (logRead s (loadBe32 s.m.bits (4 * k.val) (by omega))) else .fault .uninitRead) ∧
    hostRead s (s.params.regBase + 0x004) 4 = .next { s with readLog := s.status.toWord :: s.readLog } ∧
    (∃ x : Word, hostRead s (s.params.regBase + 0x008) 4 = .next { s with readLog := x :: s.readLog } ∧
      x.toNat = srcAddr s % 2 ^ 32) ∧
    (∃ x : Word, hostRead s (s.params.regBase + 0x00C) 4 = .next { s with readLog := x :: s.readLog } ∧
      x.toNat = srcAddr s / 2 ^ 32) ∧
    (∃ x : Word, hostRead s (s.params.regBase + 0x010) 4 = .next { s with readLog := x :: s.readLog } ∧
      x.toNat = lenOf s % 2 ^ 32) ∧
    ∃ x : Word, hostRead s (s.params.regBase + 0x014) 4 = .next { s with readLog := x :: s.readLog } ∧
      x.toNat = lenOf s / 2 ^ 32

/-- While busy a read of a datapath register returns a free value, of which nothing is known (log 8), and STATUS, SRC and LEN
read as always. -/
def Obligations.BusyReads : Prop :=
  ∀ s : State, s.status.busy = true →
    (∀ off : Nat, off % 4 = 0 → (0x020 ≤ off ∧ off < 0x0C0) ∨ (0x100 ≤ off ∧ off < 0x200) →
      hostRead s (s.params.regBase + off) 4 =
        .next { s with readLog := Config.freeRead s.draws :: s.readLog, draws := s.draws + 1 }) ∧
    hostRead s (s.params.regBase + 0x004) 4 = .next { s with readLog := s.status.toWord :: s.readLog } ∧
    (∃ x : Word, hostRead s (s.params.regBase + 0x008) 4 = .next { s with readLog := x :: s.readLog } ∧
      x.toNat = srcAddr s % 2 ^ 32) ∧
    (∃ x : Word, hostRead s (s.params.regBase + 0x00C) 4 = .next { s with readLog := x :: s.readLog } ∧
      x.toNat = srcAddr s / 2 ^ 32) ∧
    (∃ x : Word, hostRead s (s.params.regBase + 0x010) 4 = .next { s with readLog := x :: s.readLog } ∧
      x.toNat = lenOf s % 2 ^ 32) ∧
    ∃ x : Word, hostRead s (s.params.regBase + 0x014) 4 = .next { s with readLog := x :: s.readLog } ∧
      x.toNat = lenOf s / 2 ^ 32

/-- A register access that is not of 32 bits at an aligned offset below 0x200 is a model fault, for reads and writes. -/
def Obligations.WrongBusFormFaults : Prop :=
  ∀ (s : State) (off size : Nat) (v : Word), size ≠ 4 ∨ off % 4 ≠ 0 ∨ 0x200 ≤ off →
    hostWrite s (s.params.regBase + off) size v = .fault .busForm ∧
      hostRead s (s.params.regBase + off) size = .fault .busForm

/-- A host memory write inside SPAN while busy is a race. -/
def Obligations.WriteInsideSpanRaces : Prop :=
  ∀ (s : State) (addr : Nat) (v : Byte), s.status.busy = true → s.span.base ≤ addr →
    addr < s.span.base + s.span.size → hostMemWrite s addr v = .fault .hostRace

/-- Any other host memory write to an admitted address writes that byte, leaves every other byte and every register, and
keeps the memory's canonical form, which is the model's own (log 6); and one where `MEM` admits no address leaves the state as
it is, the model's choice (log 11). -/
def Obligations.MemoryWriteThenRead : Prop :=
  ∀ (s : State) (addr : Nat) (v : Byte),
    (s.status.busy = false ∨ addr < s.span.base ∨ s.span.base + s.span.size ≤ addr) →
    (Memory.wf s.mem = true → admits s.params addr = true →
      ∃ mem, hostMemWrite s addr v = .next { s with mem := mem } ∧ Memory.wf mem = true ∧ Memory.get mem addr = v ∧
        ∀ a, a ≠ addr → Memory.get mem a = Memory.get s.mem a) ∧
    (admits s.params addr = false → hostMemWrite s addr v = .next s)

/-! ## The engine -/

/-- The engine's step: the head micro-step performed and removed, or UNINIT_READ, which leaves no state, or no step, which the
model lets pass with the state unchanged (log 3); and when each micro-step reads an unwritten element, and when it has no
step. -/
def Obligations.EngineMicroStep : Prop :=
  (∀ (s : State) (u : MicroStep) (rest : List MicroStep), s.status.busy = true → s.q = u :: rest →
    (∀ t, perform u s = .done t → engineTurn s = .next { t with q := rest }) ∧
    (perform u s = .uninit → engineTurn s = .fault .uninitRead) ∧
    (perform u s = .stuck → engineTurn s = .next s)) ∧
    (∀ (s : State) (u : MicroStep), perform u s = .stuck ↔
      (∃ addr j, u = .uLoad addr ∧ j < 64 ∧ admits s.params (addr + j) = false) ∨
        (u = .uPad 0 ∧ ∃ j, j < lenOf s % 64 ∧ admits s.params (srcAddr s + 64 * (lenOf s / 64) + j) = false)) ∧
    ∀ (s : State) (u : MicroStep), perform u s = .uninit ↔
      (∃ i : Fin 64, u = .uSched i ∧ i.val < 16 ∧
        ∃ j : Fin 64, 4 * i.val ≤ j.val ∧ j.val < 4 * i.val + 4 ∧ s.m.valid[j] = false) ∨
        (∃ i : Fin 64, u = .uSched i ∧ 16 ≤ i.val ∧
          ∃ j : Fin 64, (j.val + 16 = i.val ∨ j.val + 15 = i.val ∨ j.val + 7 = i.val ∨ j.val + 2 = i.val) ∧
            s.w.valid[j] = false) ∨
        ((u = .uVinit ∨ u = .uFold ∨ u = .uSer) ∧ ∃ j : Fin 8, s.h.valid[j] = false) ∨
        ((u = .uFold ∨ ∃ i, u = .uRound i) ∧ ∃ j : Fin 8, s.v.valid[j] = false) ∨
        ∃ i : Fin 64, u = .uRound i ∧ s.w.valid[i] = false

/-- The completion step. -/
def Obligations.EngineCompletion : Prop :=
  ∀ s : State, s.status.busy = true → s.q = [] →
    engineTurn s = .next { s with
      status := { busy := false, done := true, err := s.status.err, errCode := s.status.errCode }
      span := Span.empty }

/-- An idle core does nothing on its own: its registers change only by a write to CMD, SRC or LEN, or by reset. A turn the
script gives an idle engine passes (logs 2 and 4, the model's choice). And no host operation, `wait` among them, changes a
datapath register, nor, while busy, anything the command in flight works on: BUSY, DONE, `Q`, SPAN, SRC, LEN, and the bytes inside
SPAN. -/
def Obligations.IdleCoreOnlyAnswersHost : Prop :=
  (∀ (s t : State) (e : Event), s.status.busy = false → runEvent e s = .next t → e ≠ .reset →
    (∀ (off : Nat) (v : Word), off ∈ [0x000, 0x008, 0x00C, 0x010, 0x014] →
      e ≠ .host (.wr (s.params.regBase + off) 4 v)) →
    t.h = s.h ∧ t.v = s.v ∧ t.w = s.w ∧ t.m = s.m ∧ t.d = s.d ∧ t.status = s.status ∧ t.src = s.src ∧ t.len = s.len ∧
      t.q = s.q ∧ t.span = s.span) ∧
    ∀ (s t : State) (op : HostOp), runEvent (.host op) s = .next t →
      (t.h = s.h ∧ t.v = s.v ∧ t.w = s.w ∧ t.m = s.m ∧ t.d = s.d) ∧
        (s.status.busy = true →
          (t.status.busy = true ∧ t.status.done = s.status.done ∧ t.q = s.q ∧ t.span = s.span ∧ t.src = s.src ∧
            t.len = s.len) ∧
          ∀ a, s.span.base ≤ a → a < s.span.base + s.span.size → Memory.get t.mem a = Memory.get s.mem a)

/-- A micro-step whose memory read is not admitted has no step, and every move but a reset leaves the engine busy and stuck
with that micro-step at the head of `Q`. That a stuck engine's turn passes with the state unchanged is the model's reading
(log 3). -/
def Obligations.StuckUntilReset : Prop :=
  ∀ (s : State) (u : MicroStep) (rest : List MicroStep), s.status.busy = true → s.q = u :: rest →
    (∃ addr j, u = .uLoad addr ∧ j < 64 ∧ admits s.params (addr + j) = false) ∨
      (u = .uPad 0 ∧ ∃ j, j < lenOf s % 64 ∧ admits s.params (srcAddr s + 64 * (lenOf s / 64) + j) = false) →
    engineTurn s = .next s ∧
      ∀ (e : Event) (t : State), runEvent e s = .next t → e ≠ .reset →
        t.status.busy = true ∧ t.q = s.q ∧ engineTurn t = .next t

/-- The core never writes the input memory: no command, no engine step and no reset changes any byte. -/
def Obligations.CoreNeverWritesMemory : Prop :=
  (∀ (i : Instr) (s t : State), exec i s = .next t → t.mem = s.mem ∧ ∀ a, memRead t a = memRead s a) ∧
    (∀ s t : State, engineTurn s = .next t → t.mem = s.mem ∧ ∀ a, memRead t a = memRead s a) ∧
    ∀ s t : State, runEvent .reset s = .next t → t.mem = s.mem ∧ ∀ a, memRead t a = memRead s a

/-- Which micro-step may change which register file, and that no engine step changes SRC, LEN, the parameters or the host's
own fields. -/
def Obligations.EngineStepFrame : Prop :=
  ∀ s t : State, engineTurn s = .next t →
    (t.h ≠ s.h → ∃ rest, s.q = .uInit :: rest ∨ s.q = .uFold :: rest) ∧
    (t.v ≠ s.v → ∃ rest i, s.q = .uVinit :: rest ∨ s.q = .uRound i :: rest) ∧
    (t.w ≠ s.w → ∃ rest i, s.q = .uSched i :: rest ∧ ∀ j : Fin 64, j ≠ i →
      t.w.bits[j] = s.w.bits[j] ∧ t.w.valid[j] = s.w.valid[j]) ∧
    (t.m ≠ s.m → ∃ rest addr k, s.q = .uLoad addr :: rest ∨ s.q = .uPad k :: rest) ∧
    (t.d ≠ s.d → ∃ rest, s.q = .uSer :: rest) ∧
    t.src = s.src ∧ t.len = s.len ∧ t.params = s.params ∧ t.mem = s.mem ∧ t.faultRecord = s.faultRecord ∧
    t.script = s.script ∧ t.readLog = s.readLog ∧ t.draws = s.draws ∧ t.status.err = s.status.err ∧
    t.status.errCode = s.status.errCode

/-- No valid bit is ever cleared but by reset. -/
def Obligations.ValidBitsStaySet : Prop :=
  ∀ (s t : State) (e : Event), runEvent e s = .next t → e ≠ .reset →
    (∀ j : Fin 8, s.h.valid[j] = true → t.h.valid[j] = true) ∧ (∀ j : Fin 8, s.v.valid[j] = true → t.v.valid[j] = true) ∧
    (∀ j : Fin 64, s.w.valid[j] = true → t.w.valid[j] = true) ∧
    (∀ j : Fin 64, s.m.valid[j] = true → t.m.valid[j] = true) ∧ ∀ j : Fin 32, s.d.valid[j] = true → t.d.valid[j] = true

/-! ## The whole machine -/

/-- The invariant of `Sys2Proof.Safety` holds at power-on. -/
def Obligations.InvariantAtPowerOn : Prop := Inv State.reset

/-- Every step keeps the invariant. -/
def Obligations.StepKeepsInvariant : Prop :=
  ∀ s t : State, Inv s → step s = .next t → Inv t

/-- The engine reads inside SPAN only: with the invariant, its step does not depend on any byte outside SPAN. -/
def Obligations.EngineReadsInsideSpan : Prop :=
  ∀ (s : State) (mem' : Memory), Inv s →
    (∀ a, s.span.base ≤ a → a < s.span.base + s.span.size → Memory.get mem' a = Memory.get s.mem a) →
    (∀ t, engineTurn s = .next t → engineTurn { s with mem := mem' } = .next { t with mem := mem' }) ∧
    ∀ f, engineTurn s = .fault f → engineTurn { s with mem := mem' } = .fault f

/-- A host that sets SRC and LEN, writes COMPUTE, waits, and reads the digest gets the digest of the message: the last eight
values read are the words of the digest. That each poll of `wait` is followed by one engine step, and that no move is left in a
final state, are the model's choices (logs 13 and 24). -/
def Obligations.HostOperationsHashMessage : Prop :=
  ∀ (s : State) (a n : Nat), s.faultRecord = none → s.status.busy = false → s.script = [] →
    a < 2 ^ s.params.addrW → a < 2 ^ 64 → n < 2 ^ 61 → a + n ≤ 2 ^ s.params.addrW → Readable s a n →
    ∃ k u, Sys2Proof.core.run k (s.withProgram [.sha256 a n, .rddigest]) = .next u ∧ Final u ∧
      u.status.toWord = 0x00000002#32 ∧
      u.readLog.take 8 = (hashState (bytesFrom s a) n).toList.reverse
end

