-- ==== Sys2Proof/Laws/State.lean ====
section
/-! SUPPORT. What each update of one field does to each field, and two updates of one field; all true by unfolding. -/

namespace Sys2Proof.Machine

section
variable (s : State) (x y : Memory)
@[simp] theorem State.setMem_params : (s.setMem x).params = s.params := rfl
@[simp] theorem State.setMem_mem : (s.setMem x).mem = x := rfl
@[simp] theorem State.setMem_h : (s.setMem x).h = s.h := rfl
@[simp] theorem State.setMem_v : (s.setMem x).v = s.v := rfl
@[simp] theorem State.setMem_w : (s.setMem x).w = s.w := rfl
@[simp] theorem State.setMem_m : (s.setMem x).m = s.m := rfl
@[simp] theorem State.setMem_d : (s.setMem x).d = s.d := rfl
@[simp] theorem State.setMem_status : (s.setMem x).status = s.status := rfl
@[simp] theorem State.setMem_src : (s.setMem x).src = s.src := rfl
@[simp] theorem State.setMem_len : (s.setMem x).len = s.len := rfl
@[simp] theorem State.setMem_q : (s.setMem x).q = s.q := rfl
@[simp] theorem State.setMem_span : (s.setMem x).span = s.span := rfl
@[simp] theorem State.setMem_faultRecord : (s.setMem x).faultRecord = s.faultRecord := rfl
@[simp] theorem State.setMem_script : (s.setMem x).script = s.script := rfl
@[simp] theorem State.setMem_readLog : (s.setMem x).readLog = s.readLog := rfl
@[simp] theorem State.setMem_draws : (s.setMem x).draws = s.draws := rfl
@[simp] theorem State.setMem_setMem : (s.setMem x).setMem y = s.setMem y := rfl
@[simp] theorem State.setMem_self : s.setMem s.mem = s := rfl
end

section
variable (s : State) (x y : RegFile 32 8)
@[simp] theorem State.setH_params : (s.setH x).params = s.params := rfl
@[simp] theorem State.setH_mem : (s.setH x).mem = s.mem := rfl
@[simp] theorem State.setH_h : (s.setH x).h = x := rfl
@[simp] theorem State.setH_v : (s.setH x).v = s.v := rfl
@[simp] theorem State.setH_w : (s.setH x).w = s.w := rfl
@[simp] theorem State.setH_m : (s.setH x).m = s.m := rfl
@[simp] theorem State.setH_d : (s.setH x).d = s.d := rfl
@[simp] theorem State.setH_status : (s.setH x).status = s.status := rfl
@[simp] theorem State.setH_src : (s.setH x).src = s.src := rfl
@[simp] theorem State.setH_len : (s.setH x).len = s.len := rfl
@[simp] theorem State.setH_q : (s.setH x).q = s.q := rfl
@[simp] theorem State.setH_span : (s.setH x).span = s.span := rfl
@[simp] theorem State.setH_faultRecord : (s.setH x).faultRecord = s.faultRecord := rfl
@[simp] theorem State.setH_script : (s.setH x).script = s.script := rfl
@[simp] theorem State.setH_readLog : (s.setH x).readLog = s.readLog := rfl
@[simp] theorem State.setH_draws : (s.setH x).draws = s.draws := rfl
@[simp] theorem State.setH_setH : (s.setH x).setH y = s.setH y := rfl
@[simp] theorem State.setH_self : s.setH s.h = s := rfl
end

section
variable (s : State) (x y : RegFile 32 8)
@[simp] theorem State.setV_params : (s.setV x).params = s.params := rfl
@[simp] theorem State.setV_mem : (s.setV x).mem = s.mem := rfl
@[simp] theorem State.setV_h : (s.setV x).h = s.h := rfl
@[simp] theorem State.setV_v : (s.setV x).v = x := rfl
@[simp] theorem State.setV_w : (s.setV x).w = s.w := rfl
@[simp] theorem State.setV_m : (s.setV x).m = s.m := rfl
@[simp] theorem State.setV_d : (s.setV x).d = s.d := rfl
@[simp] theorem State.setV_status : (s.setV x).status = s.status := rfl
@[simp] theorem State.setV_src : (s.setV x).src = s.src := rfl
@[simp] theorem State.setV_len : (s.setV x).len = s.len := rfl
@[simp] theorem State.setV_q : (s.setV x).q = s.q := rfl
@[simp] theorem State.setV_span : (s.setV x).span = s.span := rfl
@[simp] theorem State.setV_faultRecord : (s.setV x).faultRecord = s.faultRecord := rfl
@[simp] theorem State.setV_script : (s.setV x).script = s.script := rfl
@[simp] theorem State.setV_readLog : (s.setV x).readLog = s.readLog := rfl
@[simp] theorem State.setV_draws : (s.setV x).draws = s.draws := rfl
@[simp] theorem State.setV_setV : (s.setV x).setV y = s.setV y := rfl
@[simp] theorem State.setV_self : s.setV s.v = s := rfl
end

section
variable (s : State) (x y : RegFile 32 64)
@[simp] theorem State.setW_params : (s.setW x).params = s.params := rfl
@[simp] theorem State.setW_mem : (s.setW x).mem = s.mem := rfl
@[simp] theorem State.setW_h : (s.setW x).h = s.h := rfl
@[simp] theorem State.setW_v : (s.setW x).v = s.v := rfl
@[simp] theorem State.setW_w : (s.setW x).w = x := rfl
@[simp] theorem State.setW_m : (s.setW x).m = s.m := rfl
@[simp] theorem State.setW_d : (s.setW x).d = s.d := rfl
@[simp] theorem State.setW_status : (s.setW x).status = s.status := rfl
@[simp] theorem State.setW_src : (s.setW x).src = s.src := rfl
@[simp] theorem State.setW_len : (s.setW x).len = s.len := rfl
@[simp] theorem State.setW_q : (s.setW x).q = s.q := rfl
@[simp] theorem State.setW_span : (s.setW x).span = s.span := rfl
@[simp] theorem State.setW_faultRecord : (s.setW x).faultRecord = s.faultRecord := rfl
@[simp] theorem State.setW_script : (s.setW x).script = s.script := rfl
@[simp] theorem State.setW_readLog : (s.setW x).readLog = s.readLog := rfl
@[simp] theorem State.setW_draws : (s.setW x).draws = s.draws := rfl
@[simp] theorem State.setW_setW : (s.setW x).setW y = s.setW y := rfl
@[simp] theorem State.setW_self : s.setW s.w = s := rfl
end

section
variable (s : State) (x y : RegFile 8 64)
@[simp] theorem State.setM_params : (s.setM x).params = s.params := rfl
@[simp] theorem State.setM_mem : (s.setM x).mem = s.mem := rfl
@[simp] theorem State.setM_h : (s.setM x).h = s.h := rfl
@[simp] theorem State.setM_v : (s.setM x).v = s.v := rfl
@[simp] theorem State.setM_w : (s.setM x).w = s.w := rfl
@[simp] theorem State.setM_m : (s.setM x).m = x := rfl
@[simp] theorem State.setM_d : (s.setM x).d = s.d := rfl
@[simp] theorem State.setM_status : (s.setM x).status = s.status := rfl
@[simp] theorem State.setM_src : (s.setM x).src = s.src := rfl
@[simp] theorem State.setM_len : (s.setM x).len = s.len := rfl
@[simp] theorem State.setM_q : (s.setM x).q = s.q := rfl
@[simp] theorem State.setM_span : (s.setM x).span = s.span := rfl
@[simp] theorem State.setM_faultRecord : (s.setM x).faultRecord = s.faultRecord := rfl
@[simp] theorem State.setM_script : (s.setM x).script = s.script := rfl
@[simp] theorem State.setM_readLog : (s.setM x).readLog = s.readLog := rfl
@[simp] theorem State.setM_draws : (s.setM x).draws = s.draws := rfl
@[simp] theorem State.setM_setM : (s.setM x).setM y = s.setM y := rfl
@[simp] theorem State.setM_self : s.setM s.m = s := rfl
end

section
variable (s : State) (x y : RegFile 8 32)
@[simp] theorem State.setD_params : (s.setD x).params = s.params := rfl
@[simp] theorem State.setD_mem : (s.setD x).mem = s.mem := rfl
@[simp] theorem State.setD_h : (s.setD x).h = s.h := rfl
@[simp] theorem State.setD_v : (s.setD x).v = s.v := rfl
@[simp] theorem State.setD_w : (s.setD x).w = s.w := rfl
@[simp] theorem State.setD_m : (s.setD x).m = s.m := rfl
@[simp] theorem State.setD_d : (s.setD x).d = x := rfl
@[simp] theorem State.setD_status : (s.setD x).status = s.status := rfl
@[simp] theorem State.setD_src : (s.setD x).src = s.src := rfl
@[simp] theorem State.setD_len : (s.setD x).len = s.len := rfl
@[simp] theorem State.setD_q : (s.setD x).q = s.q := rfl
@[simp] theorem State.setD_span : (s.setD x).span = s.span := rfl
@[simp] theorem State.setD_faultRecord : (s.setD x).faultRecord = s.faultRecord := rfl
@[simp] theorem State.setD_script : (s.setD x).script = s.script := rfl
@[simp] theorem State.setD_readLog : (s.setD x).readLog = s.readLog := rfl
@[simp] theorem State.setD_draws : (s.setD x).draws = s.draws := rfl
@[simp] theorem State.setD_setD : (s.setD x).setD y = s.setD y := rfl
@[simp] theorem State.setD_self : s.setD s.d = s := rfl
end

section
variable (s : State) (x y : Status)
@[simp] theorem State.setStatus_params : (s.setStatus x).params = s.params := rfl
@[simp] theorem State.setStatus_mem : (s.setStatus x).mem = s.mem := rfl
@[simp] theorem State.setStatus_h : (s.setStatus x).h = s.h := rfl
@[simp] theorem State.setStatus_v : (s.setStatus x).v = s.v := rfl
@[simp] theorem State.setStatus_w : (s.setStatus x).w = s.w := rfl
@[simp] theorem State.setStatus_m : (s.setStatus x).m = s.m := rfl
@[simp] theorem State.setStatus_d : (s.setStatus x).d = s.d := rfl
@[simp] theorem State.setStatus_status : (s.setStatus x).status = x := rfl
@[simp] theorem State.setStatus_src : (s.setStatus x).src = s.src := rfl
@[simp] theorem State.setStatus_len : (s.setStatus x).len = s.len := rfl
@[simp] theorem State.setStatus_q : (s.setStatus x).q = s.q := rfl
@[simp] theorem State.setStatus_span : (s.setStatus x).span = s.span := rfl
@[simp] theorem State.setStatus_faultRecord : (s.setStatus x).faultRecord = s.faultRecord := rfl
@[simp] theorem State.setStatus_script : (s.setStatus x).script = s.script := rfl
@[simp] theorem State.setStatus_readLog : (s.setStatus x).readLog = s.readLog := rfl
@[simp] theorem State.setStatus_draws : (s.setStatus x).draws = s.draws := rfl
@[simp] theorem State.setStatus_setStatus : (s.setStatus x).setStatus y = s.setStatus y := rfl
@[simp] theorem State.setStatus_self : s.setStatus s.status = s := rfl
end

section
variable (s : State) (x y : DWord)
@[simp] theorem State.setSrc_params : (s.setSrc x).params = s.params := rfl
@[simp] theorem State.setSrc_mem : (s.setSrc x).mem = s.mem := rfl
@[simp] theorem State.setSrc_h : (s.setSrc x).h = s.h := rfl
@[simp] theorem State.setSrc_v : (s.setSrc x).v = s.v := rfl
@[simp] theorem State.setSrc_w : (s.setSrc x).w = s.w := rfl
@[simp] theorem State.setSrc_m : (s.setSrc x).m = s.m := rfl
@[simp] theorem State.setSrc_d : (s.setSrc x).d = s.d := rfl
@[simp] theorem State.setSrc_status : (s.setSrc x).status = s.status := rfl
@[simp] theorem State.setSrc_src : (s.setSrc x).src = x := rfl
@[simp] theorem State.setSrc_len : (s.setSrc x).len = s.len := rfl
@[simp] theorem State.setSrc_q : (s.setSrc x).q = s.q := rfl
@[simp] theorem State.setSrc_span : (s.setSrc x).span = s.span := rfl
@[simp] theorem State.setSrc_faultRecord : (s.setSrc x).faultRecord = s.faultRecord := rfl
@[simp] theorem State.setSrc_script : (s.setSrc x).script = s.script := rfl
@[simp] theorem State.setSrc_readLog : (s.setSrc x).readLog = s.readLog := rfl
@[simp] theorem State.setSrc_draws : (s.setSrc x).draws = s.draws := rfl
@[simp] theorem State.setSrc_setSrc : (s.setSrc x).setSrc y = s.setSrc y := rfl
@[simp] theorem State.setSrc_self : s.setSrc s.src = s := rfl
end

section
variable (s : State) (x y : DWord)
@[simp] theorem State.setLen_params : (s.setLen x).params = s.params := rfl
@[simp] theorem State.setLen_mem : (s.setLen x).mem = s.mem := rfl
@[simp] theorem State.setLen_h : (s.setLen x).h = s.h := rfl
@[simp] theorem State.setLen_v : (s.setLen x).v = s.v := rfl
@[simp] theorem State.setLen_w : (s.setLen x).w = s.w := rfl
@[simp] theorem State.setLen_m : (s.setLen x).m = s.m := rfl
@[simp] theorem State.setLen_d : (s.setLen x).d = s.d := rfl
@[simp] theorem State.setLen_status : (s.setLen x).status = s.status := rfl
@[simp] theorem State.setLen_src : (s.setLen x).src = s.src := rfl
@[simp] theorem State.setLen_len : (s.setLen x).len = x := rfl
@[simp] theorem State.setLen_q : (s.setLen x).q = s.q := rfl
@[simp] theorem State.setLen_span : (s.setLen x).span = s.span := rfl
@[simp] theorem State.setLen_faultRecord : (s.setLen x).faultRecord = s.faultRecord := rfl
@[simp] theorem State.setLen_script : (s.setLen x).script = s.script := rfl
@[simp] theorem State.setLen_readLog : (s.setLen x).readLog = s.readLog := rfl
@[simp] theorem State.setLen_draws : (s.setLen x).draws = s.draws := rfl
@[simp] theorem State.setLen_setLen : (s.setLen x).setLen y = s.setLen y := rfl
@[simp] theorem State.setLen_self : s.setLen s.len = s := rfl
end

section
variable (s : State) (x y : List MicroStep)
@[simp] theorem State.setQ_params : (s.setQ x).params = s.params := rfl
@[simp] theorem State.setQ_mem : (s.setQ x).mem = s.mem := rfl
@[simp] theorem State.setQ_h : (s.setQ x).h = s.h := rfl
@[simp] theorem State.setQ_v : (s.setQ x).v = s.v := rfl
@[simp] theorem State.setQ_w : (s.setQ x).w = s.w := rfl
@[simp] theorem State.setQ_m : (s.setQ x).m = s.m := rfl
@[simp] theorem State.setQ_d : (s.setQ x).d = s.d := rfl
@[simp] theorem State.setQ_status : (s.setQ x).status = s.status := rfl
@[simp] theorem State.setQ_src : (s.setQ x).src = s.src := rfl
@[simp] theorem State.setQ_len : (s.setQ x).len = s.len := rfl
@[simp] theorem State.setQ_q : (s.setQ x).q = x := rfl
@[simp] theorem State.setQ_span : (s.setQ x).span = s.span := rfl
@[simp] theorem State.setQ_faultRecord : (s.setQ x).faultRecord = s.faultRecord := rfl
@[simp] theorem State.setQ_script : (s.setQ x).script = s.script := rfl
@[simp] theorem State.setQ_readLog : (s.setQ x).readLog = s.readLog := rfl
@[simp] theorem State.setQ_draws : (s.setQ x).draws = s.draws := rfl
@[simp] theorem State.setQ_setQ : (s.setQ x).setQ y = s.setQ y := rfl
@[simp] theorem State.setQ_self : s.setQ s.q = s := rfl
end

section
variable (s : State) (x y : Span)
@[simp] theorem State.setSpan_params : (s.setSpan x).params = s.params := rfl
@[simp] theorem State.setSpan_mem : (s.setSpan x).mem = s.mem := rfl
@[simp] theorem State.setSpan_h : (s.setSpan x).h = s.h := rfl
@[simp] theorem State.setSpan_v : (s.setSpan x).v = s.v := rfl
@[simp] theorem State.setSpan_w : (s.setSpan x).w = s.w := rfl
@[simp] theorem State.setSpan_m : (s.setSpan x).m = s.m := rfl
@[simp] theorem State.setSpan_d : (s.setSpan x).d = s.d := rfl
@[simp] theorem State.setSpan_status : (s.setSpan x).status = s.status := rfl
@[simp] theorem State.setSpan_src : (s.setSpan x).src = s.src := rfl
@[simp] theorem State.setSpan_len : (s.setSpan x).len = s.len := rfl
@[simp] theorem State.setSpan_q : (s.setSpan x).q = s.q := rfl
@[simp] theorem State.setSpan_span : (s.setSpan x).span = x := rfl
@[simp] theorem State.setSpan_faultRecord : (s.setSpan x).faultRecord = s.faultRecord := rfl
@[simp] theorem State.setSpan_script : (s.setSpan x).script = s.script := rfl
@[simp] theorem State.setSpan_readLog : (s.setSpan x).readLog = s.readLog := rfl
@[simp] theorem State.setSpan_draws : (s.setSpan x).draws = s.draws := rfl
@[simp] theorem State.setSpan_setSpan : (s.setSpan x).setSpan y = s.setSpan y := rfl
@[simp] theorem State.setSpan_self : s.setSpan s.span = s := rfl
end

section
variable (s : State) (x y : List Event)
@[simp] theorem State.setScript_params : (s.setScript x).params = s.params := rfl
@[simp] theorem State.setScript_mem : (s.setScript x).mem = s.mem := rfl
@[simp] theorem State.setScript_h : (s.setScript x).h = s.h := rfl
@[simp] theorem State.setScript_v : (s.setScript x).v = s.v := rfl
@[simp] theorem State.setScript_w : (s.setScript x).w = s.w := rfl
@[simp] theorem State.setScript_m : (s.setScript x).m = s.m := rfl
@[simp] theorem State.setScript_d : (s.setScript x).d = s.d := rfl
@[simp] theorem State.setScript_status : (s.setScript x).status = s.status := rfl
@[simp] theorem State.setScript_src : (s.setScript x).src = s.src := rfl
@[simp] theorem State.setScript_len : (s.setScript x).len = s.len := rfl
@[simp] theorem State.setScript_q : (s.setScript x).q = s.q := rfl
@[simp] theorem State.setScript_span : (s.setScript x).span = s.span := rfl
@[simp] theorem State.setScript_faultRecord : (s.setScript x).faultRecord = s.faultRecord := rfl
@[simp] theorem State.setScript_script : (s.setScript x).script = x := rfl
@[simp] theorem State.setScript_readLog : (s.setScript x).readLog = s.readLog := rfl
@[simp] theorem State.setScript_draws : (s.setScript x).draws = s.draws := rfl
@[simp] theorem State.setScript_setScript : (s.setScript x).setScript y = s.setScript y := rfl
@[simp] theorem State.setScript_self : s.setScript s.script = s := rfl
end

section
variable (s : State) (x y : List Word)
@[simp] theorem State.setReadLog_params : (s.setReadLog x).params = s.params := rfl
@[simp] theorem State.setReadLog_mem : (s.setReadLog x).mem = s.mem := rfl
@[simp] theorem State.setReadLog_h : (s.setReadLog x).h = s.h := rfl
@[simp] theorem State.setReadLog_v : (s.setReadLog x).v = s.v := rfl
@[simp] theorem State.setReadLog_w : (s.setReadLog x).w = s.w := rfl
@[simp] theorem State.setReadLog_m : (s.setReadLog x).m = s.m := rfl
@[simp] theorem State.setReadLog_d : (s.setReadLog x).d = s.d := rfl
@[simp] theorem State.setReadLog_status : (s.setReadLog x).status = s.status := rfl
@[simp] theorem State.setReadLog_src : (s.setReadLog x).src = s.src := rfl
@[simp] theorem State.setReadLog_len : (s.setReadLog x).len = s.len := rfl
@[simp] theorem State.setReadLog_q : (s.setReadLog x).q = s.q := rfl
@[simp] theorem State.setReadLog_span : (s.setReadLog x).span = s.span := rfl
@[simp] theorem State.setReadLog_faultRecord : (s.setReadLog x).faultRecord = s.faultRecord := rfl
@[simp] theorem State.setReadLog_script : (s.setReadLog x).script = s.script := rfl
@[simp] theorem State.setReadLog_readLog : (s.setReadLog x).readLog = x := rfl
@[simp] theorem State.setReadLog_draws : (s.setReadLog x).draws = s.draws := rfl
@[simp] theorem State.setReadLog_setReadLog : (s.setReadLog x).setReadLog y = s.setReadLog y := rfl
@[simp] theorem State.setReadLog_self : s.setReadLog s.readLog = s := rfl
end

section
variable (s : State) (x y : Nat)
@[simp] theorem State.setDraws_params : (s.setDraws x).params = s.params := rfl
@[simp] theorem State.setDraws_mem : (s.setDraws x).mem = s.mem := rfl
@[simp] theorem State.setDraws_h : (s.setDraws x).h = s.h := rfl
@[simp] theorem State.setDraws_v : (s.setDraws x).v = s.v := rfl
@[simp] theorem State.setDraws_w : (s.setDraws x).w = s.w := rfl
@[simp] theorem State.setDraws_m : (s.setDraws x).m = s.m := rfl
@[simp] theorem State.setDraws_d : (s.setDraws x).d = s.d := rfl
@[simp] theorem State.setDraws_status : (s.setDraws x).status = s.status := rfl
@[simp] theorem State.setDraws_src : (s.setDraws x).src = s.src := rfl
@[simp] theorem State.setDraws_len : (s.setDraws x).len = s.len := rfl
@[simp] theorem State.setDraws_q : (s.setDraws x).q = s.q := rfl
@[simp] theorem State.setDraws_span : (s.setDraws x).span = s.span := rfl
@[simp] theorem State.setDraws_faultRecord : (s.setDraws x).faultRecord = s.faultRecord := rfl
@[simp] theorem State.setDraws_script : (s.setDraws x).script = s.script := rfl
@[simp] theorem State.setDraws_readLog : (s.setDraws x).readLog = s.readLog := rfl
@[simp] theorem State.setDraws_draws : (s.setDraws x).draws = x := rfl
@[simp] theorem State.setDraws_setDraws : (s.setDraws x).setDraws y = s.setDraws y := rfl
@[simp] theorem State.setDraws_self : s.setDraws s.draws = s := rfl
end

end Sys2Proof.Machine
end

