-- ==== Sys2Proof/Laws/Bus.lean ====
section
/-! SUPPORT. What a well-formed access to the register window does, and the halves of SRC and LEN as numbers. -/

namespace Sys2Proof.Machine

open Sys2Proof.Config

/-- An aligned 32-bit access inside the window has the right form (20_memory.md rule R43). -/
theorem windowOffset_at (s : State) {off : Nat} (h4 : off % 4 = 0) (h : off < 0x200) :
    windowOffset s (s.params.regBase + off) 4 = some off := by
  have e : s.params.regBase + off - s.params.regBase = off := by omega
  simp only [windowOffset, e]
  exact if_pos ⟨trivial, by omega, h4, h⟩

theorem hostWrite_reg (s : State) {off : Nat} {r : RegName} (v : Word) (h4 : off % 4 = 0) (h : off < 0x200)
    (hr : regAt off = some r) : hostWrite s (s.params.regBase + off) 4 v = writeReg s r v := by
  simp only [hostWrite, windowOffset_at s h4 h, writeOffset, hr]

theorem hostRead_reg (s : State) {off : Nat} {r : RegName} (h4 : off % 4 = 0) (h : off < 0x200)
    (hr : regAt off = some r) : hostRead s (s.params.regBase + off) 4 = readReg s r := by
  simp only [hostRead, windowOffset_at s h4 h, readOffset, hr]

theorem hostWrite_reserved (s : State) {off : Nat} (v : Word) (h4 : off % 4 = 0) (h : off < 0x200)
    (hr : regAt off = none) : hostWrite s (s.params.regBase + off) 4 v = .next s := by
  simp only [hostWrite, windowOffset_at s h4 h, writeOffset, hr]

theorem hostRead_reserved (s : State) {off : Nat} (h4 : off % 4 = 0) (h : off < 0x200) (hr : regAt off = none) :
    hostRead s (s.params.regBase + off) 4 = .next (logRead s 0#32) := by
  simp only [hostRead, windowOffset_at s h4 h, readOffset, hr]

/-- Every register stands at its own offset, aligned and inside the window. -/
theorem regAt_offset (r : RegName) : regAt r.offset = some r ∧ r.offset % 4 = 0 ∧ r.offset < 0x200 := by
  cases r with
  | hWord j => revert j; decide
  | vWord j => revert j; decide
  | digestWord k => revert k; decide
  | mWord t => revert t; decide
  | wWord i => revert i; decide +kernel
  | _ => decide

/-- A register found at an aligned offset stands at that offset. -/
theorem offset_of_regAt {off : Nat} {r : RegName} (h4 : off % 4 = 0) (hr : regAt off = some r) : off = r.offset := by
  unfold regAt at hr
  repeat' split at hr
  all_goals cases hr
  all_goals simp only [RegName.offset]
  all_goals omega

/-! ## Halves -/

theorem wireSrc_toNat (p : Params) (x : DWord) : (wireSrc p x).toNat = x.toNat % 2 ^ p.addrW := by
  have h := Nat.mod_le x.toNat (2 ^ p.addrW)
  have hx := x.isLt
  simp only [wireSrc, BitVec.toNat_ofNat]
  exact Nat.mod_eq_of_lt (by omega)

theorem setLowHalf_toNat (x : DWord) (v : Word) :
    (setLowHalf x v).toNat = x.toNat / 2 ^ 32 * 2 ^ 32 + v.toNat := by
  have hv := v.isLt
  have hx := x.isLt
  simp only [setLowHalf, highHalf, BitVec.toNat_append, BitVec.extractLsb'_toNat]
  rw [← Nat.shiftLeft_add_eq_or_of_lt hv]
  simp only [Nat.shiftLeft_eq, Nat.shiftRight_eq_div_pow]
  omega

theorem setHighHalf_toNat (x : DWord) (v : Word) :
    (setHighHalf x v).toNat = v.toNat * 2 ^ 32 + x.toNat % 2 ^ 32 := by
  have hlow : (lowHalf x).toNat = x.toNat % 2 ^ 32 := by simp [lowHalf, BitVec.extractLsb'_toNat]
  simp only [setHighHalf, BitVec.toNat_append]
  rw [← Nat.shiftLeft_add_eq_or_of_lt (lowHalf x).isLt, hlow, Nat.shiftLeft_eq]

end Sys2Proof.Machine
end

