-- ==== Sys2Proof/Laws/Ops.lean ====
section
/-! SUPPORT. What the shared operations do: register files, acceptance and rejection, and the micro-steps' frame. -/

namespace Sys2Proof.Machine

/-! ## Register files -/

theorem RegFile.get_of_valid {w n : Nat} {f : RegFile w n} {i : Fin n} (h : f.valid[i] = true) :
    f.get i = some f.bits[i] := by
  simp [RegFile.get, h]

theorem RegFile.get_eq_none {w n : Nat} {f : RegFile w n} {i : Fin n} : f.get i = none ↔ f.valid[i] = false := by
  simp [RegFile.get]

theorem RegFile.getAll_of_full {w n : Nat} {f : RegFile w n} (h : f.Full) : f.getAll = some f.bits := by
  simp only [RegFile.getAll]
  exact if_pos h

theorem RegFile.getAll_eq_none {w n : Nat} {f : RegFile w n} : f.getAll = none ↔ ¬f.Full := by
  simp only [RegFile.getAll]
  split <;> simp_all

theorem RegFile.load32_of_full {n : Nat} {f : RegFile 8 n} (h : f.Full) (o : Nat) (ho : o + 3 < n) :
    f.load32 o ho = some (loadBe32 f.bits o ho) := by
  have h0 := h ⟨o, by omega⟩
  have h1 := h ⟨o + 1, by omega⟩
  have h2 := h ⟨o + 2, by omega⟩
  have h3 := h ⟨o + 3, ho⟩
  simp only [RegFile.load32]
  exact if_pos ⟨h0, h1, h2, h3⟩

@[simp] theorem RegFile.ofAll_bits {w n : Nat} (xs : Vector (BitVec w) n) : (RegFile.ofAll xs).bits = xs := rfl

@[simp] theorem RegFile.ofAll_full {w n : Nat} (xs : Vector (BitVec w) n) : (RegFile.ofAll xs).Full := by
  intro i
  simp [RegFile.ofAll]

@[simp] theorem RegFile.set_bits {w n : Nat} (f : RegFile w n) (i : Fin n) (x : BitVec w) :
    (f.set i x).bits = f.bits.set i x := rfl

@[simp] theorem RegFile.set_valid {w n : Nat} (f : RegFile w n) (i : Fin n) (x : BitVec w) :
    (f.set i x).valid = f.valid.set i true := rfl

/-- A full register file is its bits, all just written. -/
theorem RegFile.eq_ofAll {w n : Nat} {f : RegFile w n} (h : f.Full) : f = RegFile.ofAll f.bits := by
  obtain ⟨bits, valid⟩ := f
  simp only [RegFile.ofAll, RegFile.mk.injEq, true_and]
  apply Vector.ext
  intro j hj
  have := h ⟨j, hj⟩
  simpa using this

/-! ## Acceptance and rejection -/

theorem issue_busy {c : State → Option Fault} {e : State → List MicroStep} {sp : State → Span} {s : State}
    (h : s.status.busy = true) : issue c e sp s = .next (rejectAccess s .cmdWhileBusy) := by
  simp [issue, h]

theorem issue_accepts {c : State → Option Fault} {e : State → List MicroStep} {sp : State → Span} {s : State}
    (h : s.status.busy = false) (hc : c s = none) : issue c e sp s = .next (startCommand s (e s) (sp s)) := by
  simp [issue, h, hc]

theorem issue_faults {c : State → Option Fault} {e : State → List MicroStep} {sp : State → Span} {s : State} {f : Fault}
    (h : s.status.busy = false) (hc : c s = some f) : issue c e sp s = .fault f := by
  simp [issue, h, hc]

/-- What a command word gives when it answers a next state. -/
theorem issue_next {c : State → Option Fault} {e : State → List MicroStep} {sp : State → Span} {s t : State}
    (h : issue c e sp s = .next t) :
    (s.status.busy = true ∧ t = rejectAccess s .cmdWhileBusy) ∨
      (s.status.busy = false ∧ c s = none ∧ t = startCommand s (e s) (sp s)) := by
  cases hb : s.status.busy
  · cases hc : c s
    · rw [issue_accepts hb hc] at h
      exact Or.inr ⟨rfl, rfl, by cases h; rfl⟩
    · rw [issue_faults hb hc] at h
      cases h
  · rw [issue_busy hb] at h
    exact Or.inl ⟨rfl, by cases h; rfl⟩

theorem messageContract_eq (s : State) :
    messageContract s =
      if 2 ^ 61 ≤ lenOf s then some .contractLen
      else if 2 ^ s.params.addrW < srcAddr s + lenOf s then some .contractAddr else none := by
  simp only [messageContract, lenFault, addrFault]
  by_cases h : 2 ^ 61 ≤ lenOf s
  · rw [if_pos h, if_pos h]
  · rw [if_neg h, if_neg h]

/-- Every command, in one equation: the tables of rules R59, R63 and R25, or an illegal word. -/
theorem exec_eq (i : Instr) (s : State) :
    exec i s = if i.WellFormed then issue (contractOf i) (expansion i) (spanOf i) s else issueIllegal s := by
  cases i with
  | padtail t =>
    by_cases h : t.toNat < 2
    · have hw : (Instr.padtail t).WellFormed = true := by
        simp only [Instr.WellFormed, decide_eq_true_eq]
        omega
      have hq : (⟨t.toNat, h⟩ : Fin 2) = if t = 0#6 then 0 else 1 := by
        by_cases h0 : t = 0#6
        · simp [h0]
        · have : t.toNat ≠ 0 := fun e => h0 (BitVec.eq_of_toNat_eq (by simpa using e))
          rw [if_neg h0]
          apply Fin.ext
          simp only [Fin.val_one]
          omega
      have hc : contractOf (.padtail t) s = messageContract s := (messageContract_eq s).symm
      simp only [exec, execPadtail, h, dif_pos, hw, if_true, issue, hc, hq, expansion, spanOf, messageSpan]
    · have hw : (Instr.padtail t).WellFormed = false := by
        simp only [Instr.WellFormed, decide_eq_false_iff_not]
        omega
      simp [exec, execPadtail, h, hw]
  | compute =>
    have hc : contractOf .compute s = messageContract s := (messageContract_eq s).symm
    simp only [exec, execCompute, Instr.WellFormed, if_true, issue, hc]
    rfl
  | _ => rfl

/-! ## Micro-steps -/

/-- A micro-step changes datapath registers only. -/
theorem perform_done {u : MicroStep} {s t : State} (h : perform u s = .done t) :
    ∃ h' v' w' m' d', t = { s with h := h', v := v', w := w', m := m', d := d' } := by
  cases u with
  | uInit => cases h; exact ⟨_, _, _, _, _, rfl⟩
  | uLoad addr =>
    simp only [perform, microLoad] at h
    split at h <;> cases h
    exact ⟨_, _, _, _, _, rfl⟩
  | uSched i =>
    simp only [perform, microSched] at h
    split at h <;> cases h
    exact ⟨_, _, _, _, _, rfl⟩
  | uVinit =>
    simp only [perform, microVinit] at h
    split at h <;> cases h
    exact ⟨_, _, _, _, _, rfl⟩
  | uRound i =>
    simp only [perform, microRound] at h
    split at h <;> cases h
    exact ⟨_, _, _, _, _, rfl⟩
  | uFold =>
    simp only [perform, microFold] at h
    split at h <;> cases h
    exact ⟨_, _, _, _, _, rfl⟩
  | uPad k =>
    simp only [perform, microPad, microPad0, microPad1] at h
    repeat' split at h
    all_goals cases h
    all_goals exact ⟨_, _, _, _, _, rfl⟩
  | uSer =>
    simp only [perform, microSer] at h
    split at h <;> cases h
    exact ⟨_, _, _, _, _, rfl⟩

/-- What a result becomes when the queue is replaced. -/
def MicroResult.setQ (r : MicroResult) (q : List MicroStep) : MicroResult :=
  match r with
  | .done t => .done (t.setQ q)
  | .uninit => .uninit
  | .stuck => .stuck

/-- A micro-step neither reads nor writes the queue. -/
theorem perform_setQ (u : MicroStep) (s : State) (q : List MicroStep) :
    perform u (s.setQ q) = (perform u s).setQ q := by
  cases u with
  | uInit => rfl
  | uLoad addr =>
    have e : Readable (s.setQ q) addr 64 = Readable s addr 64 := rfl
    simp only [perform, microLoad, e]
    split <;> rfl
  | uSched i =>
    have e : schedValue (s.setQ q) i = schedValue s i := rfl
    simp only [perform, microSched, e]
    split <;> rfl
  | uVinit =>
    simp only [perform, microVinit, State.setQ_h]
    split <;> rfl
  | uRound i =>
    simp only [perform, microRound, State.setQ_v, State.setQ_w]
    split <;> rfl
  | uFold =>
    simp only [perform, microFold, State.setQ_h, State.setQ_v]
    split <;> rfl
  | uPad k =>
    have e : Readable (s.setQ q) (srcAddr (s.setQ q) + 64 * (lenOf (s.setQ q) / 64)) (lenOf (s.setQ q) % 64) =
        Readable s (srcAddr s + 64 * (lenOf s / 64)) (lenOf s % 64) := rfl
    simp only [perform, microPad, microPad0, microPad1, e]
    split
    · split <;> rfl
    · rfl
  | uSer =>
    simp only [perform, microSer, State.setQ_h, State.setQ_d]
    split <;> rfl

end Sys2Proof.Machine
end

