-- ==== Sys2Proof/Laws/Engine.lean ====
section
/-! SUPPORT. What the engine does: one turn, a run of turns, and the runs of the micro-step lists of rule R63. -/

namespace Sys2Proof.Machine

/-! ## One turn -/

/-- Everything an engine's turn can do when it answers a next state. -/
theorem engineTurn_next {s t : State} (h : engineTurn s = .next t) :
    (s.status.busy = false ∧ t = s) ∨
      (s.status.busy = true ∧ s.q = [] ∧ t = completeCommand s) ∨
      (∃ u rest, s.status.busy = true ∧ s.q = u :: rest ∧ perform u s = .stuck ∧ t = s) ∨
      (∃ u rest r, s.status.busy = true ∧ s.q = u :: rest ∧ perform u s = .done r ∧ t = r.setQ rest) := by
  simp only [engineTurn] at h
  cases hb : s.status.busy
  · simp only [hb, Bool.false_eq_true, if_false] at h
    cases h
    exact Or.inl ⟨rfl, rfl⟩
  · simp only [hb, if_true] at h
    cases hq : s.q with
    | nil =>
      simp only [hq] at h
      cases h
      exact Or.inr (Or.inl ⟨rfl, rfl, rfl⟩)
    | cons u rest =>
      simp only [hq] at h
      cases hp : perform u s with
      | done r =>
        simp only [hp] at h
        cases h
        exact Or.inr (Or.inr (Or.inr ⟨u, rest, r, rfl, rfl, hp, rfl⟩))
      | uninit => simp only [hp] at h; cases h
      | stuck =>
        simp only [hp] at h
        cases h
        exact Or.inr (Or.inr (Or.inl ⟨u, rest, rfl, rfl, hp, rfl⟩))

theorem engineTurn_idle {s : State} (hb : s.status.busy = false) : engineTurn s = .next s := by
  simp [engineTurn, hb]

theorem engineTurn_complete {s : State} (hb : s.status.busy = true) (hq : s.q = []) :
    engineTurn s = .next (completeCommand s) := by
  simp [engineTurn, hb, hq]

theorem engineTurn_done {s r : State} {u : MicroStep} {rest : List MicroStep} (hb : s.status.busy = true)
    (hq : s.q = u :: rest) (hp : perform u s = .done r) : engineTurn s = .next (r.setQ rest) := by
  simp [engineTurn, hb, hq, hp]

theorem engineTurn_uninit {s : State} {u : MicroStep} {rest : List MicroStep} (hb : s.status.busy = true)
    (hq : s.q = u :: rest) (hp : perform u s = .uninit) : engineTurn s = .fault .uninitRead := by
  simp [engineTurn, hb, hq, hp]

theorem engineTurn_stuck {s : State} {u : MicroStep} {rest : List MicroStep} (hb : s.status.busy = true)
    (hq : s.q = u :: rest) (hp : perform u s = .stuck) : engineTurn s = .next s := by
  simp [engineTurn, hb, hq, hp]

/-! ## A run of turns -/

theorem engineRun_add {j k : Nat} {s t : State} (h : engineRun j s = .next t) :
    engineRun (j + k) s = engineRun k t := by
  induction j generalizing s with
  | zero => cases h; simp
  | succ j ih =>
    have e : j + 1 + k = (j + k) + 1 := by omega
    rw [e]
    simp only [engineRun] at h ⊢
    cases ht : engineTurn s with
    | next r => rw [ht] at h; exact ih h
    | fault f => rw [ht] at h; cases h
    | refused r => rw [ht] at h; cases h

theorem engineRun_fault {j : Nat} (k : Nat) {s : State} {f : Fault} (h : engineRun j s = .fault f) :
    engineRun (j + k) s = .fault f := by
  induction j generalizing s with
  | zero => cases h
  | succ j ih =>
    have e : j + 1 + k = (j + k) + 1 := by omega
    rw [e]
    simp only [engineRun] at h ⊢
    cases ht : engineTurn s with
    | next r => rw [ht] at h; exact ih h
    | fault f => rw [ht] at h; exact h
    | refused r => rw [ht] at h; cases h

/-- A list of micro-steps performed one after another. -/
def performAll : List MicroStep → State → MicroResult
  | [], s => .done s
  | u :: rest, s =>
    match perform u s with
    | .done t => performAll rest t
    | .uninit => .uninit
    | .stuck => .stuck

theorem performAll_append {us vs : List MicroStep} {s t : State} (h : performAll us s = .done t) :
    performAll (us ++ vs) s = performAll vs t := by
  induction us generalizing s with
  | nil => cases h; rfl
  | cons u rest ih =>
    simp only [performAll, List.cons_append] at h ⊢
    cases hp : perform u s with
    | done r => rw [hp] at h; exact ih h
    | uninit => rw [hp] at h; cases h
    | stuck => rw [hp] at h; cases h

theorem performAll_append_uninit {us : List MicroStep} (vs : List MicroStep) {s : State}
    (h : performAll us s = .uninit) : performAll (us ++ vs) s = .uninit := by
  induction us generalizing s with
  | nil => cases h
  | cons u rest ih =>
    simp only [performAll, List.cons_append] at h ⊢
    cases hp : perform u s with
    | done r => rw [hp] at h; exact ih h
    | uninit => rfl
    | stuck => rw [hp] at h; cases h

/-- A micro-step list changes datapath registers only. -/
theorem performAll_done {us : List MicroStep} {s t : State} (h : performAll us s = .done t) :
    ∃ h' v' w' m' d', t = { s with h := h', v := v', w := w', m := m', d := d' } := by
  induction us generalizing s with
  | nil => cases h; exact ⟨_, _, _, _, _, rfl⟩
  | cons u rest ih =>
    simp only [performAll] at h
    cases hp : perform u s with
    | done r =>
      rw [hp] at h
      obtain ⟨h1, v1, w1, m1, d1, rfl⟩ := perform_done hp
      obtain ⟨h2, v2, w2, m2, d2, rfl⟩ := ih h
      exact ⟨_, _, _, _, _, rfl⟩
    | uninit => rw [hp] at h; cases h
    | stuck => rw [hp] at h; cases h

theorem performAll_setQ (us : List MicroStep) (s : State) (q : List MicroStep) :
    performAll us (s.setQ q) = (performAll us s).setQ q := by
  induction us generalizing s with
  | nil => rfl
  | cons u rest ih =>
    simp only [performAll, perform_setQ]
    cases perform u s with
    | done r => exact ih r
    | uninit => rfl
    | stuck => rfl

/-- The engine performs the head of its queue list by list. -/
theorem engineRun_performAll {us rest : List MicroStep} {s t : State} (hb : s.status.busy = true)
    (hq : s.q = us ++ rest) (hp : performAll us s = .done t) : engineRun us.length s = .next (t.setQ rest) := by
  induction us generalizing s t with
  | nil =>
    cases hp
    have hs : s.setQ rest = s := by
      have : rest = s.q := by simpa using hq.symm
      rw [this]
      rfl
    simp [engineRun, hs]
  | cons u us ih =>
    simp only [performAll] at hp
    cases hu : perform u s with
    | uninit => rw [hu] at hp; cases hp
    | stuck => rw [hu] at hp; cases hp
    | done r =>
      rw [hu] at hp
      have hturn := engineTurn_done hb (show s.q = u :: (us ++ rest) by simpa using hq) hu
      simp only [List.length_cons, engineRun, hturn]
      have hrb : r.status.busy = true := by
        obtain ⟨_, _, _, _, _, rfl⟩ := perform_done hu
        exact hb
      have hall : performAll us (r.setQ (us ++ rest)) = .done (t.setQ (us ++ rest)) := by
        rw [performAll_setQ]
        simp only at hp
        rw [hp]
        rfl
      have := ih (s := r.setQ (us ++ rest)) (t := t.setQ (us ++ rest)) hrb rfl hall
      simpa using this

/-- A read of an unwritten element inside a list ends the run. -/
theorem engineRun_uninit {us rest : List MicroStep} {s : State} (hb : s.status.busy = true)
    (hq : s.q = us ++ rest) (hp : performAll us s = .uninit) : engineRun us.length s = .fault .uninitRead := by
  induction us generalizing s with
  | nil => cases hp
  | cons u us ih =>
    simp only [performAll] at hp
    cases hu : perform u s with
    | stuck => rw [hu] at hp; cases hp
    | uninit =>
      have hturn := engineTurn_uninit hb (show s.q = u :: (us ++ rest) by simpa using hq) hu
      simp only [List.length_cons, engineRun, hturn]
    | done r =>
      rw [hu] at hp
      have hturn := engineTurn_done hb (show s.q = u :: (us ++ rest) by simpa using hq) hu
      simp only [List.length_cons, engineRun, hturn]
      have hrb : r.status.busy = true := by
        obtain ⟨_, _, _, _, _, rfl⟩ := perform_done hu
        exact hb
      have hall : performAll us (r.setQ (us ++ rest)) = .uninit := by
        rw [performAll_setQ]
        simp only at hp
        rw [hp]
        rfl
      exact ih (s := r.setQ (us ++ rest)) hrb rfl hall

/-- A whole queue, then the completion step. -/
theorem engineRun_command {s t : State} (hb : s.status.busy = true) (hp : performAll s.q s = .done t) :
    engineRun (s.q.length + 1) s = .next (completeCommand (t.setQ [])) := by
  have hrun := engineRun_performAll (rest := []) hb (by simp) hp
  rw [engineRun_add hrun]
  have htb : (t.setQ []).status.busy = true := by
    obtain ⟨_, _, _, _, _, rfl⟩ := performAll_done hp
    exact hb
  simp only [engineRun, engineTurn_complete htb (show (t.setQ []).q = [] from rfl)]

end Sys2Proof.Machine
end

