-- ==== Sys2Proof/Laws/Lists.lean ====
section
/-! SUPPORT. What the micro-step lists of the commands do: the schedule, the 64 rounds, one block, a whole message; and
where they read an unwritten element. -/

namespace Sys2Proof.Machine

/-! ## The schedule -/

/-- The schedule after its first `k` words, from any register file: those words are written and hold their values. -/
theorem performAll_schedPrefix {s : State} (hm : s.m.Full) (k : Nat) (hk : k ≤ 64) :
    ∃ f : RegFile 32 64, performAll (((List.finRange 64).take k).map MicroStep.uSched) s = .done (s.setW f) ∧
      ∀ j (hj : j < k), f.valid[j] = true ∧
        f.bits[j] = (((List.finRange 64).take k).foldl (scheduleStep s.m.bits) (Vector.replicate 64 0#32))[j] := by
  induction k with
  | zero => exact ⟨s.w, by simp [performAll], by intro j hj; omega⟩
  | succ k ih =>
    obtain ⟨f, hf, hv⟩ := ih (by omega)
    have htake : (List.finRange 64).take (k + 1) = (List.finRange 64).take k ++ [⟨k, by omega⟩] := by
      rw [List.take_succ_eq_append_getElem (by simp; omega)]
      simp
    generalize hS : ((List.finRange 64).take k).foldl (scheduleStep s.m.bits) (Vector.replicate 64 0#32) = S at hv
    have hval : schedValue (s.setW f) ⟨k, by omega⟩ = some ((scheduleStep s.m.bits S ⟨k, by omega⟩)[k]'(by omega)) := by
      by_cases h16 : k < 16
      · simp only [schedValue, h16, dif_pos, State.setW_m, scheduleStep]
        rw [RegFile.load32_of_full hm]
        simp
      · have h1 := hv (k - 16) (by omega)
        have h2 := hv (k - 15) (by omega)
        have h3 := hv (k - 7) (by omega)
        have h4 := hv (k - 2) (by omega)
        simp only [schedValue, h16, dif_neg, not_false_eq_true, State.setW_w, scheduleStep]
        rw [RegFile.get_of_valid (i := ⟨k - 16, by omega⟩) h1.1, RegFile.get_of_valid (i := ⟨k - 15, by omega⟩) h2.1,
          RegFile.get_of_valid (i := ⟨k - 7, by omega⟩) h3.1, RegFile.get_of_valid (i := ⟨k - 2, by omega⟩) h4.1]
        simp [h1.2, h2.2, h3.2, h4.2]
    refine ⟨f.set ⟨k, by omega⟩ ((scheduleStep s.m.bits S ⟨k, by omega⟩)[k]'(by omega)), ?_, ?_⟩
    · rw [htake, List.map_append, performAll_append hf]
      simp only [List.map_cons, List.map_nil, performAll, perform, microSched, hval]
      rfl
    · intro j hj
      rw [htake, List.foldl_append, hS]
      simp only [List.foldl_cons, List.foldl_nil, RegFile.set_valid, RegFile.set_bits]
      by_cases hjk : j = k
      · subst hjk
        simp
      · have hne : k ≠ j := fun e => hjk e.symm
        have := hv j (by omega)
        refine ⟨by simp [hne, this.1], ?_⟩
        rw [Vector.getElem_set_ne (h := hne), this.2]
        simp only [scheduleStep]
        split <;> rw [Vector.getElem_set_ne (h := hne)]

/-- `uSCHED(0), ..., uSCHED(63)` writes the schedule of the block in `M` (rule R84). -/
theorem performAll_schedSteps {s : State} (hm : s.m.Full) :
    performAll schedSteps s = .done (s.setW (RegFile.ofAll (schedule s.m.bits))) := by
  obtain ⟨f, hf, hv⟩ := performAll_schedPrefix hm 64 (Nat.le_refl 64)
  have htake : (List.finRange 64).take 64 = List.finRange 64 := List.take_of_length_le (by simp)
  rw [htake] at hf hv
  rw [schedSteps, hf]
  have hfull : f.Full := fun i => (hv i.val i.isLt).1
  have hbits : f.bits = schedule s.m.bits := by
    rw [schedule]
    exact Vector.ext fun j hj => (hv j hj).2
  rw [RegFile.eq_ofAll hfull, hbits]

/-- A list of schedule steps is never stuck. -/
theorem performAll_sched_not_stuck (l : List (Fin 64)) (s : State) :
    performAll (l.map MicroStep.uSched) s ≠ .stuck := by
  induction l generalizing s with
  | nil => simp [performAll]
  | cons i rest ih =>
    simp only [List.map_cons, performAll, perform, microSched]
    cases schedValue s i with
    | none => simp
    | some x => exact ih _

/-- A list of schedule steps that is performed has read a full block for every index below 16. -/
theorem performAll_sched_reads {l : List (Fin 64)} {s t : State}
    (h : performAll (l.map MicroStep.uSched) s = .done t) :
    ∀ i ∈ l, ∀ hi : i.val < 16, s.m.load32 (4 * i.val) (by omega) ≠ none := by
  induction l generalizing s with
  | nil => simp
  | cons k rest ih =>
    simp only [List.map_cons, performAll, perform, microSched] at h
    cases hx : schedValue s k with
    | none => rw [hx] at h; cases h
    | some x =>
      rw [hx] at h
      intro i hi hlt
      rcases List.mem_cons.mp hi with rfl | hi
      · simp only [schedValue, hlt, dif_pos] at hx
        rw [hx]
        simp
      · exact ih h i hi hlt

/-- EXPAND's list reads an unwritten byte when the block buffer is not full. -/
theorem performAll_schedSteps_uninit {s : State} (hm : ¬s.m.Full) : performAll schedSteps s = .uninit := by
  cases h : performAll schedSteps s with
  | uninit => rfl
  | stuck => exact absurd h (performAll_sched_not_stuck _ s)
  | done t =>
    exfalso
    apply hm
    intro j
    have hr := performAll_sched_reads h ⟨j.val / 4, by omega⟩ (List.mem_finRange _) (by simp; omega)
    simp only [RegFile.load32, ne_eq, ite_eq_right_iff, reduceCtorEq, imp_false, not_not] at hr
    have hj : j.val = 4 * (j.val / 4) ∨ j.val = 4 * (j.val / 4) + 1 ∨ j.val = 4 * (j.val / 4) + 2 ∨
        j.val = 4 * (j.val / 4) + 3 := by omega
    obtain ⟨h0, h1, h2, h3⟩ := hr
    simp only [Fin.getElem_fin]
    rcases hj with e | e | e | e
    · rw [← h0]; congr 1
    · rw [← h1]; congr 1
    · rw [← h2]; congr 1
    · rw [← h3]; congr 1

/-! ## The rounds -/

/-- A list of rounds from given working variables, with a full schedule. -/
theorem performAll_rounds (l : List (Fin 64)) {s : State} {vs : Vector Word 8} (hv : s.v = RegFile.ofAll vs)
    (hw : s.w.Full) :
    performAll (l.map MicroStep.uRound) s =
      .done (s.setV (RegFile.ofAll (l.foldl (fun v i => roundFn v (roundConstant i) s.w.bits[i]) vs))) := by
  induction l generalizing s vs with
  | nil =>
    simp only [List.map_nil, performAll, List.foldl_nil, ← hv]
    rfl
  | cons i rest ih =>
    have hg : s.v.getAll = some vs := by
      rw [hv]
      exact RegFile.getAll_of_full (RegFile.ofAll_full vs)
    simp only [List.map_cons, performAll, perform, microRound, hg, RegFile.get_of_valid (hw i), List.foldl_cons]
    rw [ih (s := s.setV (RegFile.ofAll (roundFn vs (roundConstant i) s.w.bits[i]))) rfl hw]
    rfl

/-- `uVINIT, uROUND(0), ..., uROUND(63)` writes the compression of `H` and `W` into `V` (rule R92). -/
theorem performAll_compressSteps {s : State} (hh : s.h.Full) (hw : s.w.Full) :
    performAll compressSteps s = .done (s.setV (RegFile.ofAll (compress s.h.bits s.w.bits))) := by
  simp only [compressSteps, performAll, perform, microVinit, RegFile.getAll_of_full hh, roundSteps]
  rw [performAll_rounds (List.finRange 64) (s := s.setV (RegFile.ofAll s.h.bits)) (vs := s.h.bits) rfl hw, compress]
  rfl

/-- A list of rounds is never stuck. -/
theorem performAll_round_not_stuck (l : List (Fin 64)) (s : State) :
    performAll (l.map MicroStep.uRound) s ≠ .stuck := by
  induction l generalizing s with
  | nil => simp [performAll]
  | cons i rest ih =>
    simp only [List.map_cons, performAll, perform, microRound]
    cases s.v.getAll with
    | none => simp
    | some vs =>
      cases s.w.get i with
      | none => simp
      | some x => exact ih _

/-- A list of rounds that is performed has read its schedule words. -/
theorem performAll_round_reads {l : List (Fin 64)} {s t : State}
    (h : performAll (l.map MicroStep.uRound) s = .done t) : ∀ i ∈ l, s.w.valid[i] = true := by
  induction l generalizing s with
  | nil => simp
  | cons k rest ih =>
    simp only [List.map_cons, performAll, perform, microRound] at h
    cases hg : s.v.getAll with
    | none => simp only [hg] at h; cases h
    | some vs =>
      cases hx : s.w.get k with
      | none => simp only [hg, hx] at h; cases h
      | some x =>
        simp only [hg, hx] at h
        intro i hi
        rcases List.mem_cons.mp hi with rfl | hi
        · cases hvk : s.w.valid[i] with
          | true => rfl
          | false => rw [RegFile.get_eq_none.mpr hvk] at hx; cases hx
        · exact ih h i hi

/-- COMPRESS's list reads an unwritten word when `H` or `W` is not full. -/
theorem performAll_compressSteps_uninit {s : State} (h : ¬(s.h.Full ∧ s.w.Full)) :
    performAll compressSteps s = .uninit := by
  by_cases hh : s.h.Full
  · have hw : ¬s.w.Full := fun e => h ⟨hh, e⟩
    simp only [compressSteps, performAll, perform, microVinit, RegFile.getAll_of_full hh, roundSteps]
    cases hp : performAll ((List.finRange 64).map MicroStep.uRound) (s.setV (RegFile.ofAll s.h.bits)) with
    | uninit => rfl
    | stuck => exact absurd hp (performAll_round_not_stuck _ _)
    | done t => exact absurd (fun i => performAll_round_reads hp i (List.mem_finRange i)) hw
  · simp only [compressSteps, performAll, perform, microVinit, RegFile.getAll_eq_none.mpr hh]

/-! ## One block -/

/-- The state BLOCK leaves, before its completion (rule R97). -/
def afterBlock (s : State) : State :=
  ((s.setW (RegFile.ofAll (schedule s.m.bits))).setV
    (RegFile.ofAll (compress s.h.bits (schedule s.m.bits)))).setH (RegFile.ofAll (foldBlock s.h.bits s.m.bits))

theorem performAll_blkSteps {s : State} (hm : s.m.Full) (hh : s.h.Full) :
    performAll blkSteps s = .done (afterBlock s) := by
  have h1 := performAll_schedSteps hm
  have h2 := performAll_compressSteps (s := s.setW (RegFile.ofAll (schedule s.m.bits))) hh (RegFile.ofAll_full _)
  rw [blkSteps, List.append_assoc, performAll_append h1, performAll_append h2]
  have hg : s.h.getAll = some s.h.bits := RegFile.getAll_of_full hh
  have hv : (RegFile.ofAll (w := 32) (compress s.h.bits (schedule s.m.bits))).getAll =
      some (compress s.h.bits (schedule s.m.bits)) := RegFile.getAll_of_full (RegFile.ofAll_full _)
  simp only [performAll, perform, microFold, State.setV_h, State.setW_h, State.setV_v, hg, RegFile.ofAll_bits,
    State.setW_w, hv]
  rfl

/-- BLOCK's list reads an unwritten element when `M` or `H` is not full. -/
theorem performAll_blkSteps_uninit {s : State} (h : ¬(s.m.Full ∧ s.h.Full)) : performAll blkSteps s = .uninit := by
  rw [blkSteps, List.append_assoc]
  by_cases hm : s.m.Full
  · have hh : ¬s.h.Full := fun e => h ⟨hm, e⟩
    rw [performAll_append (performAll_schedSteps hm)]
    exact performAll_append_uninit _ (performAll_compressSteps_uninit (fun e => hh e.1))
  · exact performAll_append_uninit _ (performAll_schedSteps_uninit hm)

/-- A block just written into `M` and processed from a HashState just written. -/
def processed (s : State) (hs : Vector Word 8) (B : Vector Byte 64) : State :=
  (((s.setM (RegFile.ofAll B)).setW (RegFile.ofAll (schedule B))).setV
    (RegFile.ofAll (compress hs (schedule B)))).setH (RegFile.ofAll (foldBlock hs B))

@[simp] theorem processed_h (s : State) (hs : Vector Word 8) (B : Vector Byte 64) :
    (processed s hs B).h = RegFile.ofAll (foldBlock hs B) := rfl
@[simp] theorem processed_d (s : State) (hs : Vector Word 8) (B : Vector Byte 64) : (processed s hs B).d = s.d := rfl
@[simp] theorem processed_mem (s : State) (hs : Vector Word 8) (B : Vector Byte 64) :
    (processed s hs B).mem = s.mem := rfl
@[simp] theorem processed_params (s : State) (hs : Vector Word 8) (B : Vector Byte 64) :
    (processed s hs B).params = s.params := rfl
@[simp] theorem processed_len (s : State) (hs : Vector Word 8) (B : Vector Byte 64) :
    (processed s hs B).len = s.len := rfl

theorem performAll_blkSteps_of {s : State} {hs : Vector Word 8} {B : Vector Byte 64} (hm : s.m = RegFile.ofAll B)
    (hh : s.h = RegFile.ofAll hs) : performAll blkSteps s = .done (processed s hs B) := by
  have hmf : s.m.Full := by rw [hm]; exact RegFile.ofAll_full _
  have hhf : s.h.Full := by rw [hh]; exact RegFile.ofAll_full _
  rw [performAll_blkSteps hmf hhf]
  simp only [afterBlock, processed, hm, hh, RegFile.ofAll_bits]
  rw [← hm]
  rfl

end Sys2Proof.Machine
end

