-- ==== Sys2Proof/Laws/Commands.lean ====
section
/-! SUPPORT. One command from its acceptance to its completion, the engine alone moving. -/

namespace Sys2Proof.Machine

theorem exec_accepts {i : Instr} {s : State} (hw : i.WellFormed = true) (hb : s.status.busy = false)
    (hc : contractOf i s = none) : exec i s = .next (startCommand s (expansion i s) (spanOf i s)) := by
  rw [exec_eq, if_pos hw, issue_accepts hb hc]

/-- STATUS, the queue and the span replaced: what acceptance does. -/
def State.control (s : State) (st : Status) (q : List MicroStep) (sp : Span) : State :=
  { s with status := st, q := q, span := sp }

/-- What a result becomes under such a replacement. -/
def MicroResult.control (r : MicroResult) (st : Status) (q : List MicroStep) (sp : Span) : MicroResult :=
  match r with
  | .done t => .done (t.control st q sp)
  | .uninit => .uninit
  | .stuck => .stuck

/-- A micro-step neither reads nor writes STATUS, the queue or the span. -/
theorem perform_control (u : MicroStep) (s : State) (st : Status) (q : List MicroStep) (sp : Span) :
    perform u (s.control st q sp) = (perform u s).control st q sp := by
  cases u with
  | uInit => rfl
  | uLoad addr =>
    have e : Readable (s.control st q sp) addr 64 = Readable s addr 64 := rfl
    simp only [perform, microLoad, e]
    split <;> rfl
  | uSched i =>
    have e : schedValue (s.control st q sp) i = schedValue s i := rfl
    simp only [perform, microSched, e]
    cases schedValue s i <;> rfl
  | uVinit =>
    have e : (s.control st q sp).h = s.h := rfl
    simp only [perform, microVinit, e]
    cases s.h.getAll <;> rfl
  | uRound i =>
    have e : (s.control st q sp).v = s.v := rfl
    have e2 : (s.control st q sp).w = s.w := rfl
    simp only [perform, microRound, e, e2]
    cases s.v.getAll <;> cases s.w.get i <;> rfl
  | uFold =>
    have e : (s.control st q sp).h = s.h := rfl
    have e2 : (s.control st q sp).v = s.v := rfl
    simp only [perform, microFold, e, e2]
    cases s.h.getAll <;> cases s.v.getAll <;> rfl
  | uPad k =>
    have e : srcAddr (s.control st q sp) = srcAddr s := rfl
    have e2 : lenOf (s.control st q sp) = lenOf s := rfl
    have e3 : Readable (s.control st q sp) (srcAddr s + 64 * (lenOf s / 64)) (lenOf s % 64) =
        Readable s (srcAddr s + 64 * (lenOf s / 64)) (lenOf s % 64) := rfl
    simp only [perform, microPad, microPad0, microPad1, e, e2, e3]
    split
    · split <;> rfl
    · rfl
  | uSer =>
    have e : (s.control st q sp).h = s.h := rfl
    simp only [perform, microSer, e]
    cases s.h.getAll <;> rfl

theorem performAll_control (us : List MicroStep) (s : State) (st : Status) (q : List MicroStep) (sp : Span) :
    performAll us (s.control st q sp) = (performAll us s).control st q sp := by
  induction us generalizing s with
  | nil => rfl
  | cons u rest ih =>
    simp only [performAll, perform_control]
    cases perform u s with
    | done t => exact ih t
    | uninit => rfl
    | stuck => rfl

/-- The completion of an accepted command whose queue is done. -/
theorem finished_control (t : State) (q : List MicroStep) (sp : Span) :
    completeCommand ((t.control Status.accepted q sp).setQ []) = finished t := by
  cases t
  rfl

/-- An accepted command whose micro-steps are performed ends finished, after one engine step more than it has
micro-steps. -/
theorem exec_runs {i : Instr} {s t : State} {n : Nat} (hw : i.WellFormed = true) (hb : s.status.busy = false)
    (hc : contractOf i s = none) (hp : performAll (expansion i s) s = .done t)
    (hn : n = (expansion i s).length + 1) : ∃ u, exec i s = .next u ∧ engineRun n u = .next (finished t) := by
  subst hn
  have h : performAll (expansion i s) (startCommand s (expansion i s) (spanOf i s)) =
      .done (t.control Status.accepted (expansion i s) (spanOf i s)) := by
    rw [show startCommand s (expansion i s) (spanOf i s) = s.control Status.accepted (expansion i s) (spanOf i s) from rfl,
      performAll_control, hp]
    rfl
  have hq : (startCommand s (expansion i s) (spanOf i s)).q = expansion i s := rfl
  have hrun := engineRun_command (s := startCommand s (expansion i s) (spanOf i s)) rfl (by rw [hq]; exact h)
  rw [hq, finished_control] at hrun
  exact ⟨_, exec_accepts hw hb hc, hrun⟩

/-- An accepted command that reads an unwritten element ends in UNINIT_READ. -/
theorem exec_runs_uninit {i : Instr} {s : State} {n : Nat} (hw : i.WellFormed = true) (hb : s.status.busy = false)
    (hc : contractOf i s = none) (hp : performAll (expansion i s) s = .uninit)
    (hn : n = (expansion i s).length + 1) : ∃ u, exec i s = .next u ∧ engineRun n u = .fault .uninitRead := by
  subst hn
  have h : performAll (expansion i s) (startCommand s (expansion i s) (spanOf i s)) = .uninit := by
    rw [show startCommand s (expansion i s) (spanOf i s) = s.control Status.accepted (expansion i s) (spanOf i s) from rfl,
      performAll_control, hp]
    rfl
  have hq : (startCommand s (expansion i s) (spanOf i s)).q = expansion i s ++ [] := (List.append_nil _).symm
  exact ⟨_, exec_accepts hw hb hc, engineRun_fault 1 (engineRun_uninit rfl hq h)⟩

/-- Later schedule steps leave an earlier word as it is. -/
theorem schedulePrefix_stable (B : Vector Byte 64) {k m i : Nat} (hi : i < k) (hm : k ≤ m) (hm' : m ≤ 64) :
    (((List.finRange 64).take m).foldl (scheduleStep B) (Vector.replicate 64 0#32))[i]'(by omega) =
      (((List.finRange 64).take k).foldl (scheduleStep B) (Vector.replicate 64 0#32))[i]'(by omega) := by
  induction m with
  | zero => omega
  | succ m ih =>
    by_cases h : k = m + 1
    · subst h; rfl
    · rw [← ih (by omega) (by omega)]
      have htake : (List.finRange 64).take (m + 1) = (List.finRange 64).take m ++ [⟨m, by omega⟩] := by
        rw [List.take_succ_eq_append_getElem (by simp; omega)]
        simp
      have hne : m ≠ i := by omega
      rw [htake, List.foldl_append]
      simp only [List.foldl_cons, List.foldl_nil, scheduleStep]
      split <;> rw [Vector.getElem_set_ne (h := hne)]

/-- The schedule obeys rule R82: the block's words, then the recurrence. -/
theorem schedule_getElem (B : Vector Byte 64) (i : Nat) (hi : i < 64) :
    (schedule B)[i] = if h : i < 16 then loadBe32 B (4 * i) (by omega)
      else schedNext (schedule B)[i - 16] (schedule B)[i - 15] (schedule B)[i - 7] (schedule B)[i - 2] := by
  have e : schedule B = ((List.finRange 64).take 64).foldl (scheduleStep B) (Vector.replicate 64 0#32) := by
    rw [schedule, List.take_of_length_le (by simp)]
  have g : ∀ j k (hj : j < k) (hk : k ≤ 64), (schedule B)[j]'(by omega) =
      (((List.finRange 64).take k).foldl (scheduleStep B) (Vector.replicate 64 0#32))[j]'(by omega) := by
    intro j k hj hk
    simp only [e]
    exact schedulePrefix_stable B hj hk (Nat.le_refl 64)
  have htake : (List.finRange 64).take (i + 1) = (List.finRange 64).take i ++ [⟨i, by omega⟩] := by
    rw [List.take_succ_eq_append_getElem (by simp; omega)]
    simp
  rw [g i (i + 1) (by omega) (by omega), htake, List.foldl_append]
  simp only [List.foldl_cons, List.foldl_nil, scheduleStep]
  by_cases h : i < 16
  · simp [h]
  · simp only [h, dif_neg, not_false_eq_true, Vector.getElem_set_self]
    rw [← g (i - 16) i (by omega) (by omega), ← g (i - 15) i (by omega) (by omega), ← g (i - 7) i (by omega) (by omega),
      ← g (i - 2) i (by omega) (by omega)]

end Sys2Proof.Machine
end

