-- ==== Sys2Proof/Laws/Memory.lean ====
section
/-! SUPPORT. The laws of the input memory: what a read gives after a write, and that a write keeps the canonical form. -/

namespace Sys2Proof.Machine

/-- A canonical memory from a higher address on is one from a lower address on. -/
theorem Memory.wfFrom_mono {lo lo' : Nat} {m : Memory} (h : lo' ≤ lo) (hw : Memory.wfFrom lo m = true) :
    Memory.wfFrom lo' m = true := by
  cases m with
  | nil => rfl
  | cons c rest =>
    simp only [Memory.wfFrom, Bool.and_eq_true, decide_eq_true_eq] at hw ⊢
    exact ⟨⟨by omega, hw.1.2⟩, hw.2⟩

/-- Below its first address a canonical memory lists nothing. -/
theorem Memory.get_of_lt {lo a : Nat} {m : Memory} (hw : Memory.wfFrom lo m = true) (h : a < lo) :
    Memory.get m a = unlistedByte := by
  induction m generalizing lo with
  | nil => rfl
  | cons c rest ih =>
    simp only [Memory.wfFrom, Bool.and_eq_true, decide_eq_true_eq] at hw
    have hne : c.1 ≠ a := by omega
    simp only [Memory.get, hne, if_false]
    exact ih hw.2 (by omega)

/-- A write at or above the bound keeps the canonical form. -/
theorem Memory.wfFrom_set {lo a : Nat} {m : Memory} (x : Byte) (hw : Memory.wfFrom lo m = true) (h : lo ≤ a) :
    Memory.wfFrom lo (Memory.set m a x) = true := by
  induction m generalizing lo with
  | nil =>
    by_cases hx : x = unlistedByte
    · simp [Memory.set, hx, Memory.wfFrom]
    · simp [Memory.set, hx, Memory.wfFrom, h]
  | cons c rest ih =>
    have hw0 := hw
    simp only [Memory.wfFrom, Bool.and_eq_true, decide_eq_true_eq] at hw
    by_cases hlt : a < c.1
    · by_cases hx : x = unlistedByte
      · simp only [Memory.set, hlt, hx, if_true]
        exact hw0
      · simp only [Memory.set, hlt, hx, if_true, if_false, Memory.wfFrom, Bool.and_eq_true, decide_eq_true_eq]
        exact ⟨⟨h, hx⟩, ⟨by omega, hw.1.2⟩, hw.2⟩
    · by_cases heq : a = c.1
      · subst heq
        by_cases hx : x = unlistedByte
        · simp only [Memory.set, Nat.lt_irrefl, hx, if_true, if_false]
          exact Memory.wfFrom_mono (by omega) hw.2
        · simp only [Memory.set, Nat.lt_irrefl, hx, if_true, if_false, Memory.wfFrom, Bool.and_eq_true,
            decide_eq_true_eq]
          exact ⟨⟨h, hx⟩, hw.2⟩
      · simp only [Memory.set, hlt, heq, if_false, Memory.wfFrom, Bool.and_eq_true, decide_eq_true_eq]
        exact ⟨hw.1, ih hw.2 (by omega)⟩

/-- Every write keeps the canonical form. -/
theorem Memory.wf_set {m : Memory} (a : Nat) (x : Byte) (hw : Memory.wf m = true) :
    Memory.wf (Memory.set m a x) = true :=
  Memory.wfFrom_set x hw (Nat.zero_le a)

/-- A read of the byte just written. -/
theorem Memory.get_set_same {lo : Nat} {m : Memory} (a : Nat) (x : Byte) (hw : Memory.wfFrom lo m = true) :
    Memory.get (Memory.set m a x) a = x := by
  induction m generalizing lo with
  | nil =>
    by_cases hx : x = unlistedByte
    · simp [Memory.set, hx, Memory.get]
    · simp [Memory.set, hx, Memory.get]
  | cons c rest ih =>
    simp only [Memory.wfFrom, Bool.and_eq_true, decide_eq_true_eq] at hw
    by_cases hlt : a < c.1
    · have hne : c.1 ≠ a := by omega
      by_cases hx : x = unlistedByte
      · simp only [Memory.set, hlt, hx, if_true, Memory.get, hne, if_false]
        exact Memory.get_of_lt hw.2 (by omega)
      · simp [Memory.set, hlt, hx, Memory.get]
    · by_cases heq : a = c.1
      · by_cases hx : x = unlistedByte
        · simp only [Memory.set, heq, hx, if_true, Nat.lt_irrefl, if_false]
          exact Memory.get_of_lt hw.2 (by omega)
        · simp [Memory.set, heq, hx, Memory.get]
      · have hne : c.1 ≠ a := fun h => heq h.symm
        simp only [Memory.set, hlt, heq, if_false, Memory.get, hne]
        exact ih hw.2

/-- A write leaves every other byte as it was. -/
theorem Memory.get_set_other {m : Memory} {a b : Nat} (x : Byte) (h : b ≠ a) :
    Memory.get (Memory.set m a x) b = Memory.get m b := by
  have hab : a ≠ b := fun e => h e.symm
  induction m with
  | nil =>
    by_cases hx : x = unlistedByte
    · simp [Memory.set, hx, Memory.get]
    · simp [Memory.set, hx, Memory.get, hab]
  | cons c rest ih =>
    by_cases hlt : a < c.1
    · by_cases hx : x = unlistedByte
      · simp [Memory.set, hlt, hx]
      · simp [Memory.set, hlt, hx, Memory.get, hab]
    · by_cases heq : a = c.1
      · by_cases hx : x = unlistedByte
        · have hcb : c.1 ≠ b := by omega
          simp [Memory.set, heq, hx, Memory.get, hcb]
        · have hcb : c.1 ≠ b := by omega
          simp [Memory.set, heq, hx, Memory.get, hcb]
      · simp only [Memory.set, hlt, heq, if_false, Memory.get, ih]

/-- The addresses a memory lists after a write: the written one and those listed before. -/
theorem Memory.mem_set {m : Memory} {a : Nat} {x : Byte} {c : Host.Cell} (h : c ∈ Memory.set m a x) :
    c.1 = a ∨ c ∈ m := by
  induction m with
  | nil =>
    by_cases hx : x = unlistedByte
    · simp [Memory.set, hx] at h
    · simp only [Memory.set, hx, if_false, List.mem_singleton] at h
      exact Or.inl (by rw [h])
  | cons d rest ih =>
    by_cases hlt : a < d.1
    · by_cases hx : x = unlistedByte
      · simp only [Memory.set, hlt, hx, if_true] at h
        exact Or.inr h
      · simp only [Memory.set, hlt, hx, if_true, if_false, List.mem_cons] at h
        rcases h with h | h
        · exact Or.inl (by rw [h])
        · exact Or.inr (List.mem_cons.mpr h)
    · by_cases heq : a = d.1
      · by_cases hx : x = unlistedByte
        · simp only [Memory.set, heq, Nat.lt_irrefl, hx, if_true, if_false] at h
          exact Or.inr (List.mem_cons_of_mem _ h)
        · simp only [Memory.set, heq, Nat.lt_irrefl, hx, if_true, if_false, List.mem_cons] at h
          rcases h with h | h
          · exact Or.inl (by rw [h, heq])
          · exact Or.inr (List.mem_cons_of_mem _ h)
      · simp only [Memory.set, hlt, heq, if_false, List.mem_cons] at h
        rcases h with h | h
        · exact Or.inr (by rw [h]; exact List.mem_cons_self)
        · rcases ih h with h | h
          · exact Or.inl h
          · exact Or.inr (List.mem_cons_of_mem _ h)

end Sys2Proof.Machine
end

