-- ==== Sys2Proof/Laws/Message.lean ====
section
/-! SUPPORT. What COMPUTE's micro-step list does: the loads of the full blocks, the tail blocks, and the digest. -/

namespace Sys2Proof.Machine

/-! ## SERIALIZE -/

/-- The digest buffer after the first `k` stores: bytes below `4*k` written, the others as they were. -/
theorem serializePrefix (d : RegFile 8 32) (hs : Vector Word 8) (k : Nat) (hk : k ≤ 8) (j : Nat) (hj : j < 32) :
    (((List.finRange 8).take k).foldl (fun d i => d.store32 (4 * i.val) hs[i]) d).bits[j] =
        (if j < 4 * k then wordByte (hs[j / 4]'(by omega)) (j % 4) else d.bits[j]) ∧
      (((List.finRange 8).take k).foldl (fun d i => d.store32 (4 * i.val) hs[i]) d).valid[j] =
        (if j < 4 * k then true else d.valid[j]) := by
  induction k with
  | zero => simp
  | succ k ih =>
    have htake : (List.finRange 8).take (k + 1) = (List.finRange 8).take k ++ [⟨k, by omega⟩] := by
      rw [List.take_succ_eq_append_getElem (by simp; omega)]
      simp
    rw [htake, List.foldl_append]
    generalize ((List.finRange 8).take k).foldl (fun d i => d.store32 (4 * i.val) hs[i]) d = r at ih
    obtain ⟨ihb, ihv⟩ := ih (by omega)
    simp only [List.foldl_cons, List.foldl_nil, RegFile.store32, storeBe32, Vector.getElem_ofFn, Fin.getElem_fin]
    by_cases hin : 4 * k ≤ j ∧ j < 4 * k + 4
    · have hdiv : j / 4 = k := by omega
      have hmod : j - 4 * k = j % 4 := by omega
      have hlt : j < 4 * (k + 1) := by omega
      simp only [hin, hlt, and_self, if_true, hmod, hdiv]
    · have hiff : j < 4 * (k + 1) ↔ j < 4 * k := by omega
      simp only [hin, hiff, if_false]
      exact ⟨ihb, ihv⟩

/-- `store_be32(D, 4*j, H[j])` for all `j` writes every byte of `D` (rule R96). -/
theorem serializeInto_eq (d : RegFile 8 32) (hs : Vector Word 8) :
    serializeInto d hs = RegFile.ofAll (serialBytes hs) := by
  have htake : (List.finRange 8).take 8 = List.finRange 8 := List.take_of_length_le (by simp)
  have hp := serializePrefix d hs 8 (Nat.le_refl 8)
  rw [htake] at hp
  have hfull : (serializeInto d hs).Full := by
    intro j
    have := (hp j.val j.isLt).2
    simpa [serializeInto, j.isLt] using this
  have hbits : (serializeInto d hs).bits = serialBytes hs := by
    apply Vector.ext
    intro j hj
    have := (hp j hj).1
    simpa [serializeInto, serialBytes, hj] using this
  rw [RegFile.eq_ofAll hfull, hbits]

/-! ## The full blocks -/

/-- The loads and blocks of `n` full blocks, block numbers from `b` on, of the message at `base`. -/
theorem performAll_fullBlockSteps (base : Nat) {n b : Nat} {s : State} {hs : Vector Word 8}
    (hh : s.h = RegFile.ofAll hs) (hr : Readable s (base + 64 * b) (64 * n)) :
    ∃ v' w' m', performAll (fullBlockSteps n (base + 64 * b)) s =
      .done { s with
        h := RegFile.ofAll (((List.range' b n).map (fullBlock (bytesFrom s base))).foldl foldBlock hs)
        v := v', w := w', m := m' } := by
  induction n generalizing b s hs with
  | zero =>
    refine ⟨s.v, s.w, s.m, ?_⟩
    simp only [fullBlockSteps, performAll, List.range'_zero, List.map_nil, List.foldl_nil, ← hh]
  | succ n ih =>
    have hr64 : Readable s (base + 64 * b) 64 := fun j hj => hr j (by omega)
    have hB : fullBlock (bytesFrom s (base + 64 * b)) 0 = fullBlock (bytesFrom s base) b := by
      simp only [fullBlock, bytesFrom]
      congr 1
      funext j
      congr 1
      omega
    have hload : perform (.uLoad (base + 64 * b)) s =
        .done (s.setM (RegFile.ofAll (fullBlock (bytesFrom s base) b))) := by
      simp only [perform, microLoad, hB]
      exact if_pos hr64
    have hblk := performAll_blkSteps_of (hs := hs) (B := fullBlock (bytesFrom s base) b)
      (State.setM_m s (RegFile.ofAll (fullBlock (bytesFrom s base) b))) ((State.setM_h s _).trans hh)
    have hr' : Readable (processed (s.setM (RegFile.ofAll (fullBlock (bytesFrom s base) b))) hs
        (fullBlock (bytesFrom s base) b)) (base + 64 * (b + 1)) (64 * n) := by
      intro j hj
      have := hr (64 + j) (by omega)
      have e : base + 64 * b + (64 + j) = base + 64 * (b + 1) + j := by omega
      rw [e] at this
      rw [processed_params]
      exact this
    obtain ⟨v', w', m', hrest⟩ := ih (b := b + 1)
      (s := processed (s.setM (RegFile.ofAll (fullBlock (bytesFrom s base) b))) hs (fullBlock (bytesFrom s base) b))
      (hs := foldBlock hs (fullBlock (bytesFrom s base) b)) (processed_h _ _ _) hr'
    refine ⟨v', w', m', ?_⟩
    have hmul : base + 64 * b + 64 = base + 64 * (b + 1) := by omega
    simp only [fullBlockSteps, performAll, hload]
    rw [performAll_append hblk, hmul, hrest]
    simp only [processed, State.setH, State.setV, State.setW, State.setM, List.range'_succ, List.map_cons,
      List.foldl_cons]
    rfl

/-! ## The whole message -/

/-- The last block of a message is its last tail block. -/
theorem blockAt_last (msg : Nat → Byte) (L : Nat) :
    blockAt msg L (blockCount L - 1) = if L % 64 < 56 then tailBlock0 msg L else tailBlock1 L := by
  simp only [blockAt, blockCount, tailCount]
  by_cases h : L % 64 < 56
  · simp [h]
  · simp [h]

/-- The HashState after the full blocks. -/
theorem hashPrefix_full (msg : Nat → Byte) (L : Nat) :
    ((List.range' 0 (L / 64)).map (fullBlock msg)).foldl foldBlock iv = hashPrefix msg L (L / 64) := by
  have h : (List.range' 0 (L / 64)).map (fullBlock msg) = (List.range (L / 64)).map (blockAt msg L) := by
    rw [← List.range_eq_range']
    apply List.map_congr_left
    intro b hb
    simp only [blockAt, List.mem_range.mp hb, if_true]
  rw [h, hashPrefix]

theorem hashPrefix_succ (msg : Nat → Byte) (L b : Nat) :
    hashPrefix msg L (b + 1) = foldBlock (hashPrefix msg L b) (blockAt msg L b) := by
  simp [hashPrefix, List.range_succ]

theorem hashState_eq (msg : Nat → Byte) (L : Nat) : hashState msg L = hashPrefix msg L (blockCount L) := rfl

/-- The datapath after COMPUTE's last micro-step (rules R98, R99). -/
def afterMessage (s : State) (msg : Nat → Byte) (L : Nat) : State :=
  { s with
    h := RegFile.ofAll (hashState msg L)
    v := RegFile.ofAll (compress (hashPrefix msg L (blockCount L - 1)) (schedule (blockAt msg L (blockCount L - 1))))
    w := RegFile.ofAll (schedule (blockAt msg L (blockCount L - 1)))
    m := RegFile.ofAll (blockAt msg L (blockCount L - 1))
    d := RegFile.ofAll (digest msg L) }

/-- The tail of a message, from the HashState of its full blocks, and the digest. -/
theorem performAll_tailSteps {s : State} (hr : Readable s (srcAddr s) (lenOf s))
    (hh : s.h = RegFile.ofAll (hashPrefix (bytesFrom s (srcAddr s)) (lenOf s) (lenOf s / 64))) :
    performAll (tailSteps (lenOf s) ++ [.uSer]) s =
      .done (afterMessage s (bytesFrom s (srcAddr s)) (lenOf s)) := by
  generalize hmsg : bytesFrom s (srcAddr s) = msg at hh
  generalize hL : lenOf s = L at hr hh
  have hr0 : Readable s (srcAddr s + 64 * (L / 64)) (L % 64) := by
    intro j hj
    have := hr (64 * (L / 64) + j) (by omega)
    rw [← Nat.add_assoc] at this
    exact this
  have hpad : perform (.uPad 0) s = .done (s.setM (RegFile.ofAll (tailBlock0 msg L))) := by
    simp only [perform, microPad, microPad0, hmsg, hL, if_true]
    exact if_pos hr0
  have hblk := performAll_blkSteps_of (B := tailBlock0 msg L) (State.setM_m s (RegFile.ofAll (tailBlock0 msg L)))
    ((State.setM_h s _).trans hh)
  have hAt0 : blockAt msg L (L / 64) = tailBlock0 msg L := by simp [blockAt]
  have hfold : foldBlock (hashPrefix msg L (L / 64)) (tailBlock0 msg L) = hashPrefix msg L (L / 64 + 1) := by
    rw [hashPrefix_succ, hAt0]
  by_cases h56 : L % 64 < 56
  · have hn : ¬(56 ≤ L % 64) := by omega
    have hcount : blockCount L = L / 64 + 1 := by simp [blockCount, tailCount, h56]
    have hser : (RegFile.ofAll (w := 32) (hashPrefix msg L (L / 64 + 1))).getAll =
        some (hashPrefix msg L (L / 64 + 1)) := RegFile.getAll_of_full (RegFile.ofAll_full _)
    simp only [tailSteps, hn, if_false, List.append_nil, List.cons_append, performAll, hpad]
    rw [performAll_append hblk]
    simp only [performAll, perform, microSer, processed, State.setH_h, hfold, hser, serializeInto_eq]
    simp only [afterMessage, digest, hashState_eq, hcount, Nat.add_sub_cancel, hAt0, State.setD, State.setH, State.setV,
      State.setW, State.setM]
  · have hy : 56 ≤ L % 64 := by omega
    have hcount : blockCount L = L / 64 + 2 := by simp [blockCount, tailCount, h56]
    have hAt1 : blockAt msg L (L / 64 + 1) = tailBlock1 L := by simp [blockAt]
    have hfold2 : foldBlock (hashPrefix msg L (L / 64 + 1)) (tailBlock1 L) = hashPrefix msg L (L / 64 + 2) := by
      rw [show L / 64 + 2 = (L / 64 + 1) + 1 from rfl, hashPrefix_succ msg L (L / 64 + 1), hAt1]
    generalize hs1 : processed (s.setM (RegFile.ofAll (tailBlock0 msg L))) (hashPrefix msg L (L / 64))
      (tailBlock0 msg L) = s1 at hblk
    have hs1L : lenOf s1 = L := by
      rw [← hs1, lenOf, processed_len]
      exact hL
    have hs1h : s1.h = RegFile.ofAll (hashPrefix msg L (L / 64 + 1)) := by
      rw [← hs1, ← hfold, processed_h]
    have hpad1 : perform (.uPad 1) s1 = .done (s1.setM (RegFile.ofAll (tailBlock1 L))) := by
      have h10 : ¬((1 : Fin 2) = 0) := by decide
      simp only [perform, microPad, microPad1, h10, if_false, hs1L]
    have hblk1 := performAll_blkSteps_of (B := tailBlock1 L) (State.setM_m s1 (RegFile.ofAll (tailBlock1 L)))
      ((State.setM_h s1 _).trans hs1h)
    have hser : (RegFile.ofAll (w := 32) (hashPrefix msg L (L / 64 + 2))).getAll =
        some (hashPrefix msg L (L / 64 + 2)) := RegFile.getAll_of_full (RegFile.ofAll_full _)
    simp only [tailSteps, hy, if_true, List.cons_append, performAll, hpad, List.append_assoc]
    rw [performAll_append hblk]
    simp only [performAll, hpad1]
    rw [performAll_append hblk1]
    simp only [performAll, perform, microSer, processed, State.setH_h, hfold2, hser, serializeInto_eq]
    simp only [afterMessage, digest, hashState_eq, hcount, show L / 64 + 2 - 1 = L / 64 + 1 from rfl, hAt1, ← hs1,
      processed, State.setD, State.setH, State.setV, State.setW, State.setM]

/-- COMPUTE's whole list (rule R98). -/
theorem performAll_computeSteps {s : State} (hr : Readable s (srcAddr s) (lenOf s)) :
    performAll (computeSteps (srcAddr s) (lenOf s)) s =
      .done (afterMessage s (bytesFrom s (srcAddr s)) (lenOf s)) := by
  have hrf : Readable (s.setH (RegFile.ofAll iv)) (srcAddr s + 64 * 0) (64 * (lenOf s / 64)) := by
    intro j hj
    exact hr j (by omega)
  obtain ⟨v', w', m', hfull⟩ := performAll_fullBlockSteps (srcAddr s) (b := 0) (s := s.setH (RegFile.ofAll iv)) rfl hrf
  simp only [computeSteps, performAll, perform, microInit, List.append_assoc]
  simp only [Nat.mul_zero, Nat.add_zero] at hfull
  rw [performAll_append hfull]
  have hb : bytesFrom (s.setH (RegFile.ofAll iv)) (srcAddr s) = bytesFrom s (srcAddr s) := rfl
  rw [hb, hashPrefix_full]
  exact performAll_tailSteps (s := { s.setH (RegFile.ofAll iv) with
    h := RegFile.ofAll (hashPrefix (bytesFrom s (srcAddr s)) (lenOf s) (lenOf s / 64)), v := v', w := w', m := m' }) hr rfl

/-! ## How long the lists are (rule R67) -/

theorem blkSteps_length : blkSteps.length = 130 := by
  simp [blkSteps, schedSteps, compressSteps, roundSteps]

theorem fullBlockSteps_length (n addr : Nat) : (fullBlockSteps n addr).length = 131 * n := by
  induction n generalizing addr with
  | zero => rfl
  | succ n ih =>
    simp only [fullBlockSteps, List.length_cons, List.length_append, ih, blkSteps_length]
    omega

theorem computeSteps_length (addr L : Nat) : (computeSteps addr L).length + 1 = 131 * blockCount L + 3 := by
  simp only [computeSteps, tailSteps, List.length_cons, List.length_append, fullBlockSteps_length, blkSteps_length,
    List.length_nil, blockCount, tailCount]
  by_cases h : L % 64 < 56
  · have hn : ¬(56 ≤ L % 64) := by omega
    simp only [h, hn, if_true, if_false, List.length_nil]
    omega
  · have hy : 56 ≤ L % 64 := by omega
    simp only [h, hy, if_true, if_false, List.length_cons, blkSteps_length]
    omega

end Sys2Proof.Machine
end

