-- ==== Sys2Proof/Laws/Moves.lean ====
section
/-! SUPPORT. Everything a step can do, said once: the moves of a run, and that a step that answers a next state is one. -/

namespace Sys2Proof.Machine

/-- What can become of a state in one move. -/
inductive Move (s : State) : State → Prop where
  /-- An ignored write, a write where no memory is, an idle core's turn, or a stuck engine's turn. -/
  | stay : Move s s
  | reject (code : ErrCode) (hne : code ≠ .none) : Move s (rejectAccess s code)
  | accept (i : Instr) (hw : i.WellFormed = true) (hb : s.status.busy = false) (hc : contractOf i s = none) :
      Move s (startCommand s (expansion i s) (spanOf i s))
  | setSrc (x : DWord) (hb : s.status.busy = false) : Move s (s.setSrc (wireSrc s.params x))
  | setLen (x : DWord) (hb : s.status.busy = false) : Move s (s.setLen x)
  | write (a : Nat) (x : Byte) (ha : admits s.params a = true)
      (hr : ¬(s.status.busy = true ∧ s.span.has a = true)) : Move s (s.setMem (Memory.set s.mem a x))
  | read (x : Word) : Move s (logRead s x)
  | draw (hb : s.status.busy = true) : Move s (drawRead s)
  | poll (x : Word) (evs : List Event) : Move s ((logRead s x).setScript evs)
  | micro (u : MicroStep) (rest : List MicroStep) (r : State) (hb : s.status.busy = true) (hq : s.q = u :: rest)
      (hp : perform u s = .done r) : Move s (r.setQ rest)
  | complete (hb : s.status.busy = true) (hq : s.q = []) : Move s (completeCommand s)
  | reset : Move s (resetCore s)

theorem issueIllegal_move {s t : State} (h : issueIllegal s = .next t) : Move s t := by
  simp only [issueIllegal] at h
  split at h <;> cases h
  · exact .reject _ (by decide)
  · exact .reject _ (by decide)

theorem exec_move {i : Instr} {s t : State} (h : exec i s = .next t) : Move s t := by
  rw [exec_eq] at h
  cases hw : i.WellFormed
  · simp only [hw, Bool.false_eq_true, if_false] at h
    exact issueIllegal_move h
  · simp only [hw, if_true] at h
    rcases issue_next h with ⟨-, rfl⟩ | ⟨hb, hc, rfl⟩
    · exact .reject _ (by decide)
    · exact .accept i hw hb hc

theorem writeOperand_cases {s st t : State} (h : writeOperand s st = .next t) :
    (s.status.busy = true ∧ t = rejectAccess s .writeWhileBusy) ∨ (s.status.busy = false ∧ t = st) := by
  simp only [writeOperand] at h
  split at h <;> rename_i hb <;> cases h
  · exact Or.inl ⟨hb, rfl⟩
  · exact Or.inr ⟨by simpa using hb, rfl⟩

theorem writeReg_move {s t : State} {r : RegName} {v : Word} (h : writeReg s r v = .next t) : Move s t := by
  cases r with
  | cmd =>
    simp only [writeReg, writeCmd] at h
    split at h
    · exact exec_move h
    · exact issueIllegal_move h
  | srcLo =>
    rcases writeOperand_cases h with ⟨-, rfl⟩ | ⟨hb, rfl⟩
    · exact .reject _ (by decide)
    · exact .setSrc _ hb
  | srcHi =>
    rcases writeOperand_cases h with ⟨-, rfl⟩ | ⟨hb, rfl⟩
    · exact .reject _ (by decide)
    · exact .setSrc _ hb
  | lenLo =>
    rcases writeOperand_cases h with ⟨-, rfl⟩ | ⟨hb, rfl⟩
    · exact .reject _ (by decide)
    · exact .setLen _ hb
  | lenHi =>
    rcases writeOperand_cases h with ⟨-, rfl⟩ | ⟨hb, rfl⟩
    · exact .reject _ (by decide)
    · exact .setLen _ hb
  | status => cases h; exact .stay
  | hWord j => cases h; exact .stay
  | vWord j => cases h; exact .stay
  | digestWord k => cases h; exact .stay
  | mWord k => cases h; exact .stay
  | wWord k => cases h; exact .stay

theorem readReg_move {s t : State} {r : RegName} (h : readReg s r = .next t) : Move s t := by
  simp only [readReg] at h
  split at h
  · rename_i hb
    cases h
    exact .draw hb.2
  · split at h <;> cases h
    exact .read _

/-- Everything a host memory write that ends no run can do. -/
theorem hostMemWrite_next {s t : State} {a : Nat} {x : Byte} (h : hostMemWrite s a x = .next t) :
    ¬(s.status.busy = true ∧ s.span.has a = true) ∧
      ((admits s.params a = true ∧ t = s.setMem (Memory.set s.mem a x)) ∨ (admits s.params a = false ∧ t = s)) := by
  simp only [hostMemWrite] at h
  split at h
  · cases h
  · rename_i hr
    split at h <;> rename_i ha <;> cases h
    · exact ⟨hr, Or.inl ⟨ha, rfl⟩⟩
    · exact ⟨hr, Or.inr ⟨by simpa using ha, rfl⟩⟩

theorem hostStep_move {op : HostOp} {s t : State} (h : hostStep op s = .next t) : Move s t := by
  cases op with
  | wr addr size v =>
    simp only [hostStep, hostWrite, writeOffset] at h
    split at h
    · split at h
      · exact writeReg_move h
      · cases h; exact .stay
    · cases h
  | rd addr size =>
    simp only [hostStep, hostRead, readOffset] at h
    split at h
    · split at h
      · exact readReg_move h
      · cases h; exact .read _
    · cases h
  | memw addr v =>
    rcases hostMemWrite_next h with ⟨hr, ⟨ha, rfl⟩ | ⟨-, rfl⟩⟩
    · exact .write addr v ha hr
    · exact .stay
  | wait =>
    simp only [hostStep, hostWait] at h
    split at h <;> cases h
    · exact .poll _ _
    · exact .read _

theorem engineTurn_move {s t : State} (h : engineTurn s = .next t) : Move s t := by
  rcases engineTurn_next h with ⟨-, rfl⟩ | ⟨hb, hq, rfl⟩ | ⟨u, rest, -, -, -, rfl⟩ | ⟨u, rest, r, hb, hq, hp, rfl⟩
  · exact .stay
  · exact .complete hb hq
  · exact .stay
  · exact .micro u rest r hb hq hp

theorem runEvent_move {e : Event} {s t : State} (h : runEvent e s = .next t) : Move s t := by
  cases e with
  | host op => exact hostStep_move h
  | engine => exact engineTurn_move h
  | reset => cases h; exact .reset

/-- A step that answers a next state: no fault is recorded, and the next move of the script, or the engine's turn where the
script is empty, has been made. -/
theorem step_move {s t : State} (h : step s = .next t) :
    s.faultRecord = none ∧ ((s.script = [] ∧ engineTurn s = .next t) ∨
      ∃ e rest, s.script = e :: rest ∧ runEvent e (s.setScript rest) = .next t) := by
  simp only [step] at h
  cases hf : s.faultRecord with
  | some f => rw [hf] at h; cases h
  | none =>
    rw [hf] at h
    refine ⟨rfl, ?_⟩
    cases hs : s.script with
    | nil =>
      simp only [hs] at h
      exact Or.inl ⟨rfl, h⟩
    | cons e rest =>
      simp only [hs] at h
      exact Or.inr ⟨e, rest, rfl, h⟩

end Sys2Proof.Machine
end

