-- ==== Sys2Proof/Laws/PerInstr.lean ====
section
/-! SUPPORT. Statements made constructor by constructor: the word the encoder gives a command agrees with the command's row
of the opcode map (30_encoding.md rule R51). -/

namespace Sys2Proof.Laws

/-- The encoding of a well-formed command has the row's fixed bits, and its fields are the row's opcode and the operand. -/
def EncodeMatchesTable.Statement (i : Instr) : Prop :=
  i.WellFormed = true →
    encode i &&& i.mask = i.pattern ∧ fieldOp (encode i) = i.opcode ∧ fieldIdx (encode i) = i.idx ∧
      fieldRsv0 (encode i) = 0#4 ∧ fieldRsv1 (encode i) = 0#18

theorem EncodeMatchesTable.nop : EncodeMatchesTable.Statement .nop := fun _ => by decide

theorem EncodeMatchesTable.init : EncodeMatchesTable.Statement .init := fun _ => by decide

theorem EncodeMatchesTable.loadblk : EncodeMatchesTable.Statement .loadblk := fun _ => by decide

theorem EncodeMatchesTable.schedw (i : BitVec 6) : EncodeMatchesTable.Statement (.schedw i) := by
  intro _
  revert i
  decide +kernel

theorem EncodeMatchesTable.expand : EncodeMatchesTable.Statement .expand := fun _ => by decide

theorem EncodeMatchesTable.vinit : EncodeMatchesTable.Statement .vinit := fun _ => by decide

theorem EncodeMatchesTable.round (i : BitVec 6) : EncodeMatchesTable.Statement (.round i) := by
  intro _
  revert i
  decide +kernel

theorem EncodeMatchesTable.compress : EncodeMatchesTable.Statement .compress := fun _ => by decide

theorem EncodeMatchesTable.fold : EncodeMatchesTable.Statement .fold := fun _ => by decide

theorem EncodeMatchesTable.padtail (t : BitVec 6) : EncodeMatchesTable.Statement (.padtail t) := by
  simp only [EncodeMatchesTable.Statement]
  revert t
  decide +kernel

theorem EncodeMatchesTable.serialize : EncodeMatchesTable.Statement .serialize := fun _ => by decide

theorem EncodeMatchesTable.block : EncodeMatchesTable.Statement .block := fun _ => by decide

theorem EncodeMatchesTable.compute : EncodeMatchesTable.Statement .compute := fun _ => by decide

end Sys2Proof.Laws
end

