-- ==== Sys2Proof/Tests/Slice0.lean ====
section
/-! SUPPORT. Tests of single steps, with expected values from 95_test_vectors.md, and, for every statement that has
hypotheses, a witness that meets them. -/

namespace Sys2Proof.Tests

open Sys2Proof.Machine

/-! ## Helpers -/

/-- An idle machine with given operands. -/
def withOperands (src len : Nat) : State :=
  { State.reset with src := BitVec.ofNat 64 src, len := BitVec.ofNat 64 len }

/-- A busy machine whose engine is about to perform `u`. -/
def about (u : MicroStep) (s : State) : State := { s with status := Status.accepted, q := [u] }

/-- A busy machine with nothing left to perform. -/
def lastStep (s : State) : State := { s with status := Status.accepted, q := [] }

/-- The answer of a step, where it is a next state. -/
def nextOf (o : Host.Outcome State Fault Refusal) : Option State :=
  match o with
  | .next t => some t
  | .fault _ => none
  | .refused _ => none

/-- The fault of a step. -/
def faultOf (o : Host.Outcome State Fault Refusal) : Option Fault :=
  match o with
  | .next _ => none
  | .fault f => some f
  | .refused _ => none

/-- The message "abc" at address 0x1000. -/
def abcMem : Memory := [(0x1000, 0x61#8), (0x1001, 0x62#8), (0x1002, 0x63#8)]

/-- The HashState of "abc" (L2.7). -/
def abcHash : Vector Word 8 :=
  #v[0xba7816bf#32, 0x8f01cfea#32, 0x414140de#32, 0x5dae2223#32, 0xb00361a3#32, 0x96177a9c#32, 0xb410ff61#32, 0xf20015ad#32]

/-- The working variables after the 64 rounds of "abc" (L2.5, line t=63). -/
def abcVars : Vector Word 8 :=
  #v[0x506e3058#32, 0xd39a2165#32, 0x04d24d6c#32, 0xb85e2ce9#32, 0x5ef50f24#32, 0xfb121210#32, 0x948d25b6#32, 0x961f4894#32]

/-- A register file whose every element holds `x`. -/
def allOf {w n : Nat} (x : BitVec w) : RegFile w n := RegFile.ofAll (Vector.replicate n x)

/-- A machine every datapath register of which has been written. -/
def written : State :=
  { State.reset with h := allOf 0#32, v := allOf 0#32, w := allOf 0#32, m := allOf 0#8, d := allOf 0#8 }

/-- A busy machine whose command reads the three bytes from 0x1000 on. -/
def busyCompute : State :=
  { withOperands 0x1000 3 with status := Status.accepted, q := [.uPad 0], span := { base := 0x1000, size := 3 } }

/-- The parameters of a machine with 64 bytes of memory from 0x1000 on and no other. -/
def smallParams : Config.Params := { addrW := 32, regBase := 0, regions := [{ base := 0x1000, size := 64 }] }

/-! ## Well-formedness, decoding, encoding -/

theorem test_wf_refuses_tail_selector_2 : Instr.WellFormed (.padtail 2#6) = false := by decide
theorem test_wf_accepts_tail_selector_1 : Instr.WellFormed (.padtail 1#6) = true := by decide

/-- L2.8 and the opcode map, one word per command, written out from rule R49's fields. -/
theorem test_decode_no_operand :
    decode 0b00000000000000_000000_0000_0000#32 = .cmd .nop ∧ decode 0b00000000000000_000000_0000_0001#32 = .cmd .init ∧
      decode 0b00000000000000_000000_0000_0010#32 = .cmd .loadblk ∧
      decode 0b00000000000000_000000_0000_0100#32 = .cmd .expand ∧
      decode 0b00000000000000_000000_0000_0101#32 = .cmd .vinit ∧
      decode 0b00000000000000_000000_0000_0111#32 = .cmd .compress ∧
      decode 0b00000000000000_000000_0000_1000#32 = .cmd .fold ∧
      decode 0b00000000000000_000000_0000_1010#32 = .cmd .serialize ∧
      decode 0b00000000000000_000000_0000_1011#32 = .cmd .block ∧
      decode 0b00000000000000_000000_0000_1100#32 = .cmd .compute := by decide

theorem test_decode_operand :
    decode 0b00000000000000_010000_0000_0011#32 = .cmd (.schedw 16#6) ∧
      decode 0b00000000000000_111111_0000_0011#32 = .cmd (.schedw 63#6) ∧
      decode 0b00000000000000_000000_0000_0110#32 = .cmd (.round 0#6) ∧
      decode 0b00000000000000_111111_0000_0110#32 = .cmd (.round 63#6) ∧
      decode 0b00000000000000_000000_0000_1001#32 = .cmd (.padtail 0#6) ∧
      decode 0b00000000000000_000001_0000_1001#32 = .cmd (.padtail 1#6) := by decide

/-- L2.8: the illegal words, and NOP with `IDX = 1` (L2.9). -/
theorem test_decode_illegal :
    decode 0x00000209#32 = .illegal .tailIdx ∧ decode 0x00000101#32 = .illegal .idxNotZero ∧
      decode 0x00000100#32 = .illegal .idxNotZero ∧ decode 0x00000016#32 = .illegal .rsv0 ∧
      decode 0x00004006#32 = .illegal .rsv1 ∧ decode 0x80000000#32 = .illegal .rsv1 ∧
      decode 0x0000000d#32 = .illegal .reservedOp ∧ decode 0x0000000e#32 = .illegal .reservedOp ∧
      decode 0x0000000f#32 = .illegal .reservedOp := by decide

theorem test_encode :
    encode (.schedw 16#6) = 0x00001003#32 ∧ encode (.round 63#6) = 0x00003f06#32 ∧ encode (.padtail 1#6) = 0x00000109#32 ∧
      encode .compute = 0x0000000c#32 := by decide

/-- The table's words reach the decoder, and a word placed with `withFetchWord` is what the next step presents. -/
theorem test_table_words :
    (List.range 13).map (decodeTableWord 32) =
      [some .nop, some .init, some .loadblk, some (.schedw 0#6), some .expand, some .vinit, some (.round 0#6),
        some .compress, some .fold, some (.padtail 0#6), some .serialize, some .block, some .compute] := by decide

theorem test_fetch_word_runs :
    (List.range 13).all (fun w =>
      (nextOf (step (State.reset.withFetchWord 32 w))).any fun t => t.status.busy && t.script.isEmpty) = true := by
  decide

/-! ## Words, codec, padding -/

/-- L2.1. -/
theorem test_words :
    rotr 0x00000001#32 7 = 0x02000000#32 ∧ rotr 0x12345678#32 18 = 0x159e048d#32 ∧ rotr 0x80000001#32 25 = 0x000000c0#32 ∧
      shr 0xffffffff#32 3 = 0x1fffffff#32 := by decide

/-- L2.4 and L2.5: the functions. -/
theorem test_functions :
    sigma0 0x12345678#32 = 0xe7fce6ee#32 ∧ sigma1 0x12345678#32 = 0xa1f78649#32 ∧ bigSigma0 0x12345678#32 = 0x66146474#32 ∧
      bigSigma1 0x12345678#32 = 0x3561abda#32 ∧
      ch 0xf0f0f0f0#32 0xff00ff00#32 0x0f0f0f0f#32 = 0xff0fff0f#32 ∧
      maj 0xffffffff#32 0x12345678#32 0x9abcdef0#32 = 0x9abcdef8#32 := by decide

/-- L2.2. -/
theorem test_codec :
    loadBe32 #v[0x61#8, 0x62#8, 0x63#8, 0x80#8] 0 (by decide) = 0x61626380#32 ∧
      storeBe32 (Vector.replicate 4 0#8) 0 0xba7816bf#32 = #v[0xba#8, 0x78#8, 0x16#8, 0xbf#8] ∧
      storeBe64 (Vector.replicate 8 0#8) 0 (bitLength 56) = #v[0#8, 0#8, 0#8, 0#8, 0#8, 0#8, 0x01#8, 0xc0#8] ∧
      storeBe64 (Vector.replicate 8 0#8) 0 (bitLength (2 ^ 61 - 1)) =
        #v[0xff#8, 0xff#8, 0xff#8, 0xff#8, 0xff#8, 0xff#8, 0xff#8, 0xf8#8] := by decide

/-- L2.3, column N. -/
theorem test_block_count :
    [0, 3, 55, 56, 57, 63, 64, 65, 119, 120].map blockCount = [1, 1, 1, 2, 2, 2, 2, 2, 2, 3] := by decide

/-- L2.4: `W[16]`, `W[63]` of the padded "abc" block. -/
theorem test_schedule_of_abc :
    (schedule (tailBlock0 (bytesFrom { State.reset with mem := abcMem } 0x1000) 3))[16] = 0x61626380#32 ∧
      (schedule (tailBlock0 (bytesFrom { State.reset with mem := abcMem } 0x1000) 3))[63] = 0x12b1edeb#32 := by
  decide +kernel

/-- L2.7: "abc". -/
theorem test_hash_of_abc : hashState (bytesFrom { State.reset with mem := abcMem } 0x1000) 3 = abcHash := by
  decide +kernel

/-! ## The commands -/

/-- L2.6: NOP from STATUS 00000014 ends with STATUS 00000002. -/
theorem test_nop :
    (nextOf (exec .nop { State.reset with status := { busy := false, done := false, err := true, errCode := .illegalCmd } })).map
      (fun t => (t.status.toWord, t.q)) = some (0x00000001#32, []) ∧
    (nextOf (engineTurn (lastStep State.reset))).map (fun t => t.status.toWord) = some 0x00000002#32 := by decide

/-- L2.6: INIT. -/
theorem test_init :
    (nextOf (exec .init State.reset)).map (fun t => t.q) = some [.uInit] ∧
    (nextOf (engineTurn (about .uInit State.reset))).map (fun t => (t.h.bits[0], t.h.bits[7], t.q)) =
      some (0x6a09e667#32, 0x5be0cd19#32, []) := by decide

/-- L2.10: LOADBLK at the end of the address space; its bytes come from `SRC` on, in order. -/
theorem test_loadblk_edge :
    (nextOf (exec .loadblk (withOperands 0xffffffc0 0))).map (fun t => (t.q, t.span)) =
      some ([.uLoad 0xffffffc0], { base := 0xffffffc0, size := 64 }) ∧
    faultOf (exec .loadblk (withOperands 0xffffffc1 0)) = some .contractAddr ∧
    (nextOf (exec .loadblk (withOperands 0 (2 ^ 61)))).isSome = true := by decide

theorem test_loadblk_bytes :
    (nextOf (engineTurn (about (.uLoad 0x0fff) { State.reset with mem := abcMem }))).map
      (fun t => (t.m.bits[0], t.m.bits[1], t.m.bits[3], t.m.bits[4], t.m.valid[63])) =
      some (0x00#8, 0x61#8, 0x63#8, 0x00#8, true) := by decide +kernel

/-- L2.4: `W[0]` of "abc" from `M`, and `W[17]` from `W[1]`, `W[2]`, `W[10]`, `W[15]`. -/
theorem test_schedw :
    (nextOf (engineTurn (about (.uSched 0) { State.reset with
      m := (((RegFile.unwritten 8 64).set 0 0x61#8).set 1 0x62#8).set 2 0x63#8 |>.set 3 0x80#8 }))).map
        (fun t => t.w.bits[0]) = some 0x61626380#32 ∧
    (nextOf (engineTurn (about (.uSched 17) { State.reset with w := (allOf 0#32).set 15 0x00000018#32 }))).map
        (fun t => (t.w.bits[17], t.w.bits[15])) = some (0x000f0000#32, 0x00000018#32) := by decide

/-- L2.4: after reset both forms of SCHEDW read an unwritten element. -/
theorem test_schedw_uninit :
    (nextOf (exec (.schedw 16#6) State.reset)).map (fun t => t.q) = some [.uSched 16] ∧
    faultOf (engineTurn (about (.uSched 16) State.reset)) = some .uninitRead ∧
    faultOf (engineTurn (about (.uSched 0) State.reset)) = some .uninitRead := by decide

/-- Rule R63: EXPAND's list, in ascending order. -/
theorem test_expand :
    (nextOf (exec .expand State.reset)).map (fun t => (t.q.length, t.q[0]?, t.q[63]?)) =
      some (64, some (.uSched 0), some (.uSched 63)) := by decide

theorem test_vinit :
    (nextOf (exec .vinit State.reset)).map (fun t => t.q) = some [.uVinit] ∧
    (nextOf (engineTurn (about .uVinit { State.reset with h := RegFile.ofAll iv }))).map (fun t => t.v) =
      some (RegFile.ofAll iv) ∧
    faultOf (engineTurn (about .uVinit State.reset)) = some .uninitRead := by decide

/-- L2.5: round 0 of "abc". -/
theorem test_round :
    (nextOf (exec (.round 63#6) State.reset)).map (fun t => t.q) = some [.uRound 63] ∧
    (nextOf (engineTurn (about (.uRound 0) { State.reset with
      v := RegFile.ofAll iv, w := (RegFile.unwritten 32 64).set 0 0x61626380#32 }))).map (fun t => t.v.bits) =
      some #v[0x5d6aebcd#32, 0x6a09e667#32, 0xbb67ae85#32, 0x3c6ef372#32, 0xfa2a4622#32, 0x510e527f#32, 0x9b05688c#32,
        0x1f83d9ab#32] := by decide

/-- L2.5: the corner round with every bit set. -/
theorem test_round_wraps :
    (nextOf (engineTurn (about (.uRound 63) { State.reset with v := allOf 0xffffffff#32, w := allOf 0xffffffff#32 }))).map
      (fun t => (t.v.bits[0], t.v.bits[1], t.v.bits[4])) = some (0xc67178ec#32, 0xffffffff#32, 0xc67178ed#32) := by decide

theorem test_compress :
    (nextOf (exec .compress State.reset)).map (fun t => (t.q.length, t.q[0]?, t.q[1]?, t.q[64]?)) =
      some (65, some .uVinit, some (.uRound 0), some (.uRound 63)) := by decide

/-- L2.6: both FOLD rows. -/
theorem test_fold :
    (nextOf (exec .fold State.reset)).map (fun t => t.q) = some [.uFold] ∧
    (nextOf (engineTurn (about .uFold { State.reset with h := RegFile.ofAll iv, v := RegFile.ofAll abcVars }))).map
      (fun t => t.h == RegFile.ofAll abcHash) = some true := by decide +kernel

theorem test_fold_wraps :
    (nextOf (engineTurn (about .uFold { written with
      h := ((allOf 0#32).set 0 0xffffffff#32).set 1 0x80000000#32 |>.set 2 1#32
      v := ((allOf 0#32).set 0 1#32).set 1 0x80000000#32 |>.set 2 0xffffffff#32 }))).map (fun t => t.h == allOf 0#32) =
      some true := by decide +kernel

/-- L2.3: "abc", and the corner PADTAIL 1 with `L = 3`. -/
theorem test_padtail :
    (nextOf (engineTurn (about (.uPad 0) { withOperands 0x1000 3 with mem := abcMem }))).map
      (fun t => (t.m.bits[0], t.m.bits[2], t.m.bits[3], t.m.bits[4], t.m.bits[62], t.m.bits[63])) =
      some (0x61#8, 0x63#8, 0x80#8, 0x00#8, 0x00#8, 0x18#8) ∧
    (nextOf (engineTurn (about (.uPad 1) (withOperands 0x1000 3)))).map (fun t => (t.m.bits[0], t.m.bits[3], t.m.bits[63])) =
      some (0x00#8, 0x00#8, 0x18#8) := by decide +kernel

/-- L2.3: `L = 56` and `L = 55`, either side of the length's fit. -/
theorem test_padtail_edge :
    (nextOf (engineTurn (about (.uPad 0) (withOperands 0x1000 56)))).map (fun t => (t.m.bits[55], t.m.bits[56], t.m.bits[63])) =
      some (0x00#8, 0x80#8, 0x00#8) ∧
    (nextOf (engineTurn (about (.uPad 0) (withOperands 0x1000 55)))).map
      (fun t => (t.m.bits[55], t.m.bits[56], t.m.bits[62], t.m.bits[63])) = some (0x80#8, 0x00#8, 0x01#8, 0xb8#8) := by
  decide +kernel

/-- L2.6: SERIALIZE. -/
theorem test_serialize :
    (nextOf (exec .serialize State.reset)).map (fun t => t.q) = some [.uSer] ∧
    (nextOf (engineTurn (about .uSer { State.reset with h := RegFile.ofAll abcHash }))).map
      (fun t => (t.d.bits[0], t.d.bits[1], t.d.bits[2], t.d.bits[3], t.d.bits[4], t.d.bits[31])) =
      some (0xba#8, 0x78#8, 0x16#8, 0xbf#8, 0x8f#8, 0xad#8) := by decide +kernel

/-- Rule R63: BLK. -/
theorem test_block :
    (nextOf (exec .block State.reset)).map (fun t => (t.q.length, t.q[63]?, t.q[64]?, t.q[65]?, t.q[129]?)) =
      some (130, some (.uSched 63), some .uVinit, some (.uRound 0), some .uFold) := by decide +kernel

/-- L2.10: COMPUTE's contract, and P3: `L = 56` takes 265 engine steps. -/
theorem test_compute_contract :
    faultOf (exec .compute (withOperands 0 (2 ^ 61))) = some .contractLen ∧
    (nextOf (exec .compute (withOperands 0xffffffff 0))).isSome = true ∧
    faultOf (exec .compute (withOperands 0xffffffff 2)) = some .contractAddr ∧
    faultOf (exec (.padtail 0#6) (withOperands 0 (2 ^ 61))) = some .contractLen := by decide

theorem test_compute_steps :
    (nextOf (exec .compute (withOperands 0x2000 56))).map (fun t => (t.q.length + 1, t.q[0]?, t.q[1]?, t.q[132]?, t.q[263]?)) =
      some (265, some .uInit, some (.uPad 0), some (.uPad 1), some .uSer) := by decide +kernel

/-! ## Protocol, window, memory -/

/-- L2.9: errors while idle and while busy. -/
theorem test_errors :
    (nextOf (hostWrite State.reset 0x000 4 0x0000000d#32)).map (fun t => t.status.toWord) = some 0x00000014#32 ∧
    (nextOf (hostWrite (lastStep State.reset) 0x000 4 0x00000000#32)).map (fun t => t.status.toWord) = some 0x00000025#32 ∧
    (nextOf (hostWrite (lastStep State.reset) 0x010 4 5#32)).map (fun t => (t.status.toWord, t.len)) =
      some (0x00000035#32, 0#64) := by decide

/-- L2.10: reads after reset and while busy, and a byte read of STATUS. -/
theorem test_reads :
    faultOf (hostRead State.reset 0x020 4) = some .uninitRead ∧
    (nextOf (hostRead (lastStep State.reset) 0x020 4)).isSome = true ∧
    faultOf (hostRead State.reset 0x004 1) = some .busForm ∧
    (nextOf (hostRead State.reset 0x018 4)).map (fun t => t.readLog) = some [0#32] := by decide

/-- L2.6: DIGEST7 after SERIALIZE reads as `H[7]`. -/
theorem test_digest_read :
    (nextOf (hostRead { State.reset with d := RegFile.ofAll (serialBytes abcHash) } 0x07c 4)).map (fun t => t.readLog) =
      some [0xf20015ad#32] := by decide +kernel

/-- L2.10: the race, the write just outside SPAN, and R36: a write below the only memory is no concern of the core. -/
theorem test_memory_writes :
    faultOf (hostMemWrite busyCompute 0x1001 0#8) = some .hostRace ∧
    (nextOf (hostMemWrite busyCompute 0x1003 7#8)).map (fun t => t.mem) = some [(0x1003, 7#8)] ∧
    nextOf (hostMemWrite { State.reset with params := smallParams } 0x0fff 1#8) =
      some { State.reset with params := smallParams } := by decide

/-- L2.10: a read of an absent byte leaves the engine stuck. -/
theorem test_stuck :
    nextOf (engineTurn (about (.uLoad 0x1001) { State.reset with params := smallParams })) =
      some (about (.uLoad 0x1001) { State.reset with params := smallParams }) ∧
    Stuck (about (.uLoad 0x1001) { State.reset with params := smallParams }) = true ∧
    Stuck (about (.uLoad 0x1000) { State.reset with params := smallParams }) = false := by decide

/-- A reset while busy abandons the command (70_reset_and_hazards.md rule R120). -/
theorem test_reset_while_busy :
    (nextOf (runEvent .reset busyCompute)).map (fun t => (t.status.toWord, t.q, t.src, t.len)) =
      some (0x00000000#32, [], 0#64, 0#64) := by decide

/-- Rule R55: the text of a program. -/
theorem test_program_text :
    parseProgram (codesOf "memw 0x1000, \"abc\"\nsetlen 3 ; three\nRound 63\nrd digest7") =
      some [.memw 0x1000 [0x61#8, 0x62#8, 0x63#8], .setlen 3, .cmd 6 63, .rd (.digestWord 7)] := by decide +kernel

/-! ## Witnesses: for every statement with hypotheses, values that meet them, at the ends of their ranges -/

/-- "abc" at 0x1000, to be hashed. -/
def abcState : State := { withOperands 0x1000 3 with mem := abcMem }

/-- "abc" at 0x2000, to be hashed, in a machine that has worked before. -/
def abcElsewhere : State :=
  { written with src := 0x2000#64, len := 3#64, mem := [(0x2000, 0x61#8), (0x2001, 0x62#8), (0x2002, 0x63#8)] }

/-- The longest legal message, in a 64-bit address space. -/
def longest : State :=
  { withOperands 0 (2 ^ 61 - 1) with params := { addrW := 64, regBase := 0, regions := [{ base := 0, size := 2 ^ 64 }] } }

/-- An idle machine with an error recorded. -/
def withError : State := { State.reset with status := { busy := false, done := true, err := true, errCode := .illegalCmd } }

theorem witness_LegalWordsMatchOpcodeTable :
    0x00003f06#32 &&& (Instr.round 0#6).mask = (Instr.round 0#6).pattern ∧
      0x00003f06#32 &&& (Instr.round 63#6).mask = (Instr.round 63#6).pattern := by decide

theorem witness_IllegalWordsAreRejected :
    decode 0x0000000d#32 = .illegal .reservedOp ∧ State.reset.status.busy = false ∧
      (lastStep State.reset).status.busy = true := by decide

theorem witness_StepRunsDecodedCommand :
    State.reset.faultRecord = none ∧
      (State.reset.withFetchWord 32 0x3f06).script =
        .host (.wr ((State.reset.withFetchWord 32 0x3f06).params.regBase + 0x000) 4 0x00003f06#32) :: [] ∧
      decode 0x00003f06#32 = .cmd (.round 63#6) ∧ decodeTableWord 32 0x3f06 = some (.round 63#6) := by decide

theorem witness_StepMakesScheduledMove :
    State.reset.faultRecord = none ∧ State.reset.script = [] ∧ (State.reset.setScript [.engine]).script = .engine :: [] ∧
      (State.reset.setScript [.reset]).script = .reset :: [] ∧
      (State.reset.setScript [.host .wait]).script = .host .wait :: [] := by decide

theorem witness_FaultRecordIsNeverCleared : step State.reset = .next State.reset := rfl

theorem witness_ResetForgetsDatapath :
    (RegName.hWord 7).isDatapath = true ∧ (RegName.vWord 0).isDatapath = true ∧ (RegName.digestWord 7).isDatapath = true ∧
      (RegName.mWord 15).isDatapath = true ∧ (RegName.wWord 63).isDatapath = true := by decide

theorem witness_RotateAndShiftBits : (0 < 1 ∧ 1 < 32) ∧ (0 < 31 ∧ 31 < 32) := by decide

theorem witness_ChoiceAndMajorityBits : 0 < 32 ∧ 31 < 32 := by decide

theorem witness_LoadIsBigEndian :
    0 + 3 < 4 ∧ written.m.load32 60 (by decide) ≠ none ∧ State.reset.m.load32 60 (by decide) = none := by decide

/-- Byte `o`, byte `o + 3`, the byte after, and the eight bytes from 56 on. -/
theorem witness_StoreIsBigEndian :
    (4 < 32 ∧ 4 ≤ 4 ∧ 4 < 4 + 4) ∧ (7 < 32 ∧ 4 ≤ 7 ∧ 7 < 4 + 4) ∧ (8 < 32 ∧ ¬(4 ≤ 8 ∧ 8 < 4 + 4)) ∧
      (63 < 64 ∧ 56 ≤ 63 ∧ 63 < 56 + 8) := by decide

theorem witness_CodecRoundTrip : 0 + 3 < 4 ∧ 60 + 3 < 64 := by decide

theorem witness_BitLengthIsExact : (BitVec.ofNat 64 (2 ^ 61 - 1)).toNat < 2 ^ 61 := by decide

/-- `L = 56`: the last message byte, the `0x80`, a zero before the last block, and the length's first and last byte. -/
theorem witness_PaddedMessageBytes :
    blockCount 56 = 2 ∧ 64 * 0 + 55 < 56 ∧ 64 * 0 + 56 = 56 ∧
      (¬(64 * 0 + 57 ≤ 56) ∧ ¬(0 + 1 = blockCount 56 ∧ 56 ≤ 57)) ∧ (1 + 1 = blockCount 56 ∧ 56 ≤ 56 ∧ 63 < 64) ∧
      2 ^ 61 - 1 < 2 ^ 61 := by decide

theorem witness_NopRuns : State.reset.status.busy = false := rfl

theorem witness_InitRuns : State.reset.status.busy = false := rfl

/-- LOADBLK at address 0 and at the last address. -/
theorem witness_LoadblkRuns :
    (srcAddr State.reset + 64 ≤ 2 ^ State.reset.params.addrW ∧ Readable State.reset (srcAddr State.reset) 64) ∧
      srcAddr (withOperands 0xffffffc0 0) + 64 ≤ 2 ^ (withOperands 0xffffffc0 0).params.addrW ∧
      Readable (withOperands 0xffffffc0 0) (srcAddr (withOperands 0xffffffc0 0)) 64 := by decide +kernel

/-- The ends of both ranges, with what they read written and unwritten. -/
theorem witness_SchedwRuns :
    ((0 : Fin 64).val < 16 ∧ (15 : Fin 64).val < 16 ∧ written.m.valid[63] = true ∧ State.reset.m.valid[63] = false) ∧
      ¬(16 : Fin 64).val < 16 ∧ ¬(63 : Fin 64).val < 16 ∧ written.w.valid[0] = true ∧ State.reset.w.valid[61] = false := by
  decide

theorem witness_ExpandRuns :
    (written.status.busy = false ∧ written.m.Full) ∧ State.reset.status.busy = false ∧ ¬State.reset.m.Full := by decide

theorem witness_VinitRuns :
    (written.status.busy = false ∧ written.h.Full) ∧ State.reset.status.busy = false ∧ ¬State.reset.h.Full := by decide

theorem witness_CompressRuns :
    (written.status.busy = false ∧ written.h.Full ∧ written.w.Full) ∧ State.reset.status.busy = false ∧
      ¬State.reset.w.Full := by decide

theorem witness_FoldRuns :
    (written.status.busy = false ∧ written.h.Full ∧ written.v.Full) ∧ State.reset.status.busy = false ∧
      ¬State.reset.v.Full := by decide

theorem witness_SerializeRuns :
    (written.status.busy = false ∧ written.h.Full) ∧ State.reset.status.busy = false ∧ ¬State.reset.h.Full := by decide

theorem witness_BlockRuns :
    (written.status.busy = false ∧ written.m.Full ∧ written.h.Full) ∧ State.reset.status.busy = false ∧
      ¬State.reset.m.Full := by decide

theorem witness_RoundRuns :
    written.status.busy = false ∧ written.v.bits = #v[0#32, 0#32, 0#32, 0#32, 0#32, 0#32, 0#32, 0#32] ∧
      ∃ t1 t2 : Word,
        t1 = 0#32 + bigSigma1 0#32 + ch 0#32 0#32 0#32 + roundConstant 63 + written.w.bits[(63 : Fin 64)] ∧
        t2 = bigSigma0 0#32 + maj 0#32 0#32 0#32 := ⟨rfl, by decide, _, _, rfl, rfl⟩

/-- PADTAIL 0 and PADTAIL 1, for "abc" and for the longest legal message. -/
theorem witness_PadtailRuns :
    ((0#6).toNat ≤ 1 ∧ (1#6).toNat ≤ 1) ∧
      (lenOf abcState < 2 ^ 61 ∧ srcAddr abcState + lenOf abcState ≤ 2 ^ abcState.params.addrW ∧
        Readable abcState (srcAddr abcState + 64 * (lenOf abcState / 64)) (lenOf abcState % 64)) ∧
      longest.status.busy = false ∧ lenOf longest < 2 ^ 61 ∧ srcAddr longest + lenOf longest ≤ 2 ^ longest.params.addrW ∧
      Readable longest (srcAddr longest + 64 * (lenOf longest / 64)) (lenOf longest % 64) := by decide +kernel

theorem witness_ComputeRuns :
    abcState.status.busy = false ∧ lenOf abcState < 2 ^ 61 ∧
      srcAddr abcState + lenOf abcState ≤ 2 ^ abcState.params.addrW ∧ Readable abcState (srcAddr abcState) (lenOf abcState) ∧
      (∀ n, n < lenOf abcState →
        memRead abcState (srcAddr abcState + n) = some (bytesFrom abcState (srcAddr abcState) n)) ∧
      1 = (lenOf abcState + 8) / 64 + 1 := by decide +kernel

/-- The clause on the last block: for "abc" it is the only one, and nothing is folded before it. -/
theorem witness_ComputeRuns_blocks :
    iv = ((blocks (bytesFrom abcState 0x1000) 3).take (1 - 1)).foldl
        (fun x B => Vector.ofFn fun j => x[j] + (compress x (schedule B))[j]) iv ∧
      (blocks (bytesFrom abcState 0x1000) 3).drop (1 - 1) = [blockAt (bytesFrom abcState 0x1000) 3 0] := by
  constructor <;> rfl

theorem witness_DigestDependsOnMessageOnly :
    (abcState.status.busy = false ∧ abcElsewhere.status.busy = false ∧ lenOf abcState < 2 ^ 61 ∧
      lenOf abcElsewhere = lenOf abcState) ∧
      (srcAddr abcState + lenOf abcState ≤ 2 ^ abcState.params.addrW ∧
        srcAddr abcElsewhere + lenOf abcElsewhere ≤ 2 ^ abcElsewhere.params.addrW) ∧
      Readable abcState (srcAddr abcState) (lenOf abcState) ∧
      Readable abcElsewhere (srcAddr abcElsewhere) (lenOf abcElsewhere) ∧
      ∀ n, n < lenOf abcState →
        Memory.get abcState.mem (srcAddr abcState + n) = Memory.get abcElsewhere.mem (srcAddr abcElsewhere + n) := by
  decide +kernel

/-- The contract at its ends: the last address, and the longest message. -/
theorem witness_CommandsAreAccepted :
    Instr.WellFormed .compute = true ∧ Instr.WellFormed (.padtail 1#6) = true ∧ longest.status.busy = false ∧
      srcAddr (withOperands 0xffffffc0 0) + 64 ≤ 2 ^ (withOperands 0xffffffc0 0).params.addrW ∧
      lenOf longest < 2 ^ 61 ∧ srcAddr longest + lenOf longest ≤ 2 ^ longest.params.addrW := by decide

theorem witness_ExpansionTable :
    ∃ (sched rounds blk : List MicroStep) (n R : Nat),
      sched = (List.finRange 64).map MicroStep.uSched ∧ rounds = (List.finRange 64).map MicroStep.uRound ∧
      blk = sched ++ [.uVinit] ++ rounds ++ [.uFold] ∧ n = lenOf abcState / 64 ∧ R = lenOf abcState % 64 :=
  ⟨_, _, _, _, _, rfl, rfl, rfl, rfl, rfl⟩

theorem witness_EngineStepCounts :
    (nextOf (exec .compute abcState)).isSome = true ∧ (nextOf (exec (.schedw 63#6) State.reset)).isSome = true ∧
      (nextOf (exec .loadblk State.reset)).isSome = true := by decide +kernel

theorem witness_ContractBreaksFault :
    2 ^ 61 ≤ lenOf (withOperands 0 (2 ^ 61)) ∧
      2 ^ (withOperands 0xffffffc1 0).params.addrW < srcAddr (withOperands 0xffffffc1 0) + 64 ∧
      (lenOf (withOperands 0xffffffff 2) < 2 ^ 61 ∧
        2 ^ (withOperands 0xffffffff 2).params.addrW <
          srcAddr (withOperands 0xffffffff 2) + lenOf (withOperands 0xffffffff 2)) ∧
      faultOf (exec .loadblk (withOperands 0xffffffc1 0)) = some .contractAddr := by decide

theorem witness_BusyCommandsAreRejected : (lastStep State.reset).status.busy = true ∧ busyCompute.status.busy = true := by
  decide

theorem witness_OperandWrites :
    busyCompute.status.busy = true ∧ State.reset.status.busy = false ∧
      (nextOf (runEvent .engine busyCompute)).isSome = true ∧ Event.engine ≠ Event.reset := by decide +kernel

theorem witness_IdleReads :
    written.status.busy = false ∧ (written.h.valid[7] = true ∧ State.reset.h.valid[7] = false) ∧
      (written.w.valid[63] = true ∧ State.reset.w.valid[63] = false) ∧
      (written.d.valid[31] = true ∧ State.reset.d.valid[31] = false) ∧ written.m.valid[63] = true ∧
      State.reset.m.valid[63] = false := by decide

theorem witness_SrcHalvesInAnyOrder : 2 ^ 64 - 1 < 2 ^ 64 ∧ State.reset.status.busy = false := by decide

/-- A legal command clears ERR; so does a reset; the three rejections set it or change its code. -/
theorem witness_ErrorLifecycle :
    (nextOf (runEvent (.host (.wr 0x000 4 0x0000000d#32)) State.reset)).map (fun t => t.status.err) = some true ∧
    (nextOf (runEvent (.host (.wr 0x000 4 0x00000000#32)) busyCompute)).map (fun t => t.status.err) = some true ∧
    (nextOf (runEvent (.host (.wr 0x014 4 0x00000000#32)) busyCompute)).map (fun t => t.status.errCode) =
      some .writeWhileBusy ∧
    (nextOf (runEvent (.host (.wr 0x000 4 0x00000000#32)) withError)).map (fun t => t.status.err) = some false ∧
      (nextOf (runEvent .reset withError)).map (fun t => t.status.err) = some false ∧ withError.status.err = true := by
  decide

/-- The ends of the read-only ranges. -/
theorem witness_ReadOnlyWritesAreIgnored :
    [0x004, 0x020, 0x0bc, 0x100, 0x1fc].all (fun off =>
      decide (off % 4 = 0 ∧ (off = 0x004 ∨ (0x020 ≤ off ∧ off < 0x0c0) ∨ (0x100 ≤ off ∧ off < 0x200)))) = true := by
  decide

/-- The ends of the reserved ranges, a read that answers, and the first and the last ignored write. -/
theorem witness_ReservedOffsetsAndReads :
    [0x004, 0x018, 0x01c, 0x020, 0x1fc].all (fun off =>
      decide (off % 4 = 0 ∧ off < 0x200 ∧ off ∉ [0x000, 0x008, 0x00c, 0x010, 0x014])) = true ∧
    [0x018, 0x01c, 0x0c0, 0x0fc].all (fun off =>
      decide (off % 4 = 0 ∧ (off = 0x018 ∨ off = 0x01c ∨ (0x0c0 ≤ off ∧ off < 0x100)))) = true ∧
      (nextOf (hostRead State.reset 0x1fc 4)).isNone = true ∧ (nextOf (hostRead written 0x1fc 4)).isSome = true := by
  decide

/-- A busy machine, and the first and the last datapath offset. -/
theorem witness_BusyReads :
    busyCompute.status.busy = true ∧
      [0x020, 0x0bc, 0x100, 0x1fc].all (fun off =>
        decide (off % 4 = 0 ∧ ((0x020 ≤ off ∧ off < 0x0c0) ∨ (0x100 ≤ off ∧ off < 0x200)))) = true := by decide

/-- A window at 0x40: a byte access, a misaligned offset, and the first past its end. -/
theorem witness_WrongBusFormFaults :
    1 ≠ 4 ∧ 0x1fd % 4 ≠ 0 ∧ 0x200 ≤ 0x200 ∧
      faultOf (hostRead { State.reset with params := { smallParams with regBase := 0x40 } } 0x240 4) = some .busForm ∧
      (nextOf (hostRead { written with params := { smallParams with regBase := 0x40 } } 0x23c 4)).isSome = true := by
  decide

/-- The first and the last address of the span. -/
theorem witness_WriteInsideSpanRaces :
    busyCompute.status.busy = true ∧ (busyCompute.span.base ≤ 0x1000 ∧ 0x1000 < busyCompute.span.base + busyCompute.span.size) ∧
      (busyCompute.span.base ≤ 0x1002 ∧ 0x1002 < busyCompute.span.base + busyCompute.span.size) := by decide

/-- The byte below SPAN and the byte above it, the last admitted address, and the addresses below and above the only memory. -/
theorem witness_MemoryWriteThenRead :
    (Memory.wf abcMem = true ∧ admits busyCompute.params 0xffffffff = true ∧ 0x0fff < busyCompute.span.base ∧
      busyCompute.span.base + busyCompute.span.size ≤ 0x1003 ∧ abcState.status.busy = false) ∧
      State.reset.status.busy = false ∧ admits smallParams 0x0fff = false ∧ admits smallParams 0x1000 = true ∧
        admits busyCompute.params 0x100000000 = false := by decide

theorem witness_EngineMicroStep :
    (about .uInit State.reset).status.busy = true ∧ (about .uInit State.reset).q = .uInit :: [] ∧
      (match perform .uInit State.reset with | .done _ => true | .uninit => false | .stuck => false) = true ∧
      perform .uSer State.reset = .uninit ∧ perform (.uLoad 0x1001) { State.reset with params := smallParams } = .stuck := by
  decide

theorem witness_EngineCompletion : (lastStep State.reset).status.busy = true ∧ (lastStep State.reset).q = [] := by decide

/-- A poll of STATUS and a write to the register beside CMD while idle; a poll and the memory writes beside SPAN while busy. -/
theorem witness_IdleCoreOnlyAnswersHost :
    (busyCompute.status.busy = true ∧ (nextOf (runEvent (.host .wait) busyCompute)).isSome = true ∧
      (nextOf (runEvent (.host (.memw 0x0fff 1#8)) busyCompute)).isSome = true ∧
      (nextOf (runEvent (.host (.memw 0x1003 1#8)) busyCompute)).isSome = true ∧
      busyCompute.span.base ≤ 0x1000 ∧ 0x1002 < busyCompute.span.base + busyCompute.span.size) ∧
    (nextOf (runEvent (.host .wait) State.reset)).isSome = true ∧
      (nextOf (runEvent (.host (.wr 0x004 4 0#32)) State.reset)).isSome = true ∧
      0x004 ∉ [0x000, 0x008, 0x00c, 0x010, 0x014] := by decide

/-- A load whose last byte is absent, and a tail block whose only byte is absent. -/
theorem witness_StuckUntilReset :
    admits smallParams (0x1001 + 63) = false ∧
      (0 < lenOf (withOperands 0x1040 1) % 64 ∧
        admits smallParams (srcAddr (withOperands 0x1040 1) + 64 * (lenOf (withOperands 0x1040 1) / 64) + 0) = false) ∧
      (nextOf (runEvent (.host .wait) (about (.uLoad 0x1001) { State.reset with params := smallParams }))).isSome = true := by
  decide

theorem witness_CoreNeverWritesMemory :
    (nextOf (exec .compute abcState)).isSome = true ∧ (nextOf (engineTurn busyCompute)).isSome = true ∧
      (nextOf (runEvent .reset busyCompute)).isSome = true := by decide +kernel

/-- A step of each kind that changes a register file. -/
theorem witness_EngineStepFrame :
    [MicroStep.uInit, .uFold, .uVinit, .uRound 0, .uSched 16, .uLoad 0, .uPad 0, .uPad 1, .uSer].all (fun u =>
      (nextOf (engineTurn (about u written))).isSome) = true := by decide +kernel

theorem witness_ValidBitsStaySet :
    (nextOf (runEvent .engine (about (.uSched 16) written))).isSome = true ∧ written.w.valid[16] = true ∧
      Event.engine ≠ Event.reset := by decide +kernel

/-- The invariant holds of a busy machine with a tail block to form. -/
theorem witness_Inv : Inv busyCompute where
  params := by decide
  memWf := by decide
  memAdmitted := by decide
  srcWired := by decide
  status := by decide
  idle := by decide
  spanFits := by decide
  within := by
    intro u hu
    rw [List.mem_singleton.mp hu]
    exact ⟨by decide, by decide⟩

theorem witness_StepKeepsInvariant : (nextOf (step busyCompute)).isSome = true := by decide +kernel

/-- Memories that agree on the span and differ just outside it. -/
theorem witness_EngineReadsInsideSpan :
    (∀ k, k < 3 → Memory.get [(0x1003, 9#8)] (busyCompute.span.base + k) = Memory.get busyCompute.mem (busyCompute.span.base + k)) ∧
      Memory.get [(0x1003, 9#8)] 0x1003 ≠ Memory.get busyCompute.mem 0x1003 := by decide

theorem witness_HostOperationsHashMessage :
    (abcState.faultRecord = none ∧ abcState.status.busy = false ∧ abcState.script = []) ∧
      0x1000 < 2 ^ abcState.params.addrW ∧ 0x1000 < 2 ^ 64 ∧ 3 < 2 ^ 61 ∧ 0x1000 + 3 ≤ 2 ^ abcState.params.addrW ∧
      Readable abcState 0x1000 3 := by decide

end Sys2Proof.Tests
end

/-! # The register window and the input memory (20_memory.md) -/

namespace Sys2Proof.Machine

/-! ## Which register stands at an offset -/

/-- The reserved offsets of the window are those where no register stands (rule R42). -/
theorem regAt_eq_none {off : Nat} (h4 : off % 4 = 0) (h : off < 0x200) :
    regAt off = none ↔ off = 0x018 ∨ off = 0x01C ∨ (0x0C0 ≤ off ∧ off < 0x100) := by
  unfold regAt
  repeat' split
  all_goals simp only [reduceCtorEq, false_iff, true_iff]
  all_goals omega

/-- A datapath register stands at every aligned offset of the window's two datapath ranges (rule R42). -/
theorem regAt_datapath {off : Nat} (h4 : off % 4 = 0)
    (h : (0x020 ≤ off ∧ off < 0x0C0) ∨ (0x100 ≤ off ∧ off < 0x200)) :
    ∃ r, regAt off = some r ∧ r.isDatapath = true := by
  cases hr : regAt off with
  | none =>
    have := (regAt_eq_none h4 (by omega)).mp hr
    omega
  | some r =>
    refine ⟨r, rfl, ?_⟩
    have ho := offset_of_regAt h4 hr
    cases r with
    | cmd | status | srcLo | srcHi | lenLo | lenHi => simp only [RegName.offset] at ho; omega
    | hWord j | vWord j | digestWord k | mWord k | wWord i => rfl

/-! ## Writes -/

/-- A write that is not at CMD, SRC or LEN finds a read-only register or a reserved offset, and changes nothing
(rules R44, R45). -/
theorem hostWrite_ignored (s : State) {off : Nat} (v : Word) (h4 : off % 4 = 0) (h : off < 0x200)
    (hoff : off ∉ [0x000, 0x008, 0x00C, 0x010, 0x014]) :
    hostWrite s (s.params.regBase + off) 4 v = .next s := by
  cases hr : regAt off with
  | none => exact hostWrite_reserved s v h4 h hr
  | some r =>
    rw [hostWrite_reg s v h4 h hr]
    rw [offset_of_regAt h4 hr] at hoff
    cases r with
    | cmd | srcLo | srcHi | lenLo | lenHi => exact absurd (by decide) hoff
    | status | hWord j | vWord j | digestWord k | mWord k | wWord i => rfl

/-- Settles O43: a read-only offset is none of those at which a write does anything. -/
theorem readOnlyWritesAreIgnored : Obligations.ReadOnlyWritesAreIgnored := by
  intro s off v h4 h
  refine hostWrite_ignored s v h4 (by omega) ?_
  simp only [List.mem_cons, List.not_mem_nil, or_false]
  omega

/-! ## Reads -/

/-- A read of a register at its own offset reaches that register. -/
theorem hostRead_offset (s : State) (r : RegName) :
    hostRead s (s.params.regBase + r.offset) 4 = readReg s r := by
  obtain ⟨hr, h4, h⟩ := regAt_offset r
  exact hostRead_reg s h4 h hr

/-- A read of CMD, STATUS, SRC or LEN answers, idle or busy. -/
theorem hostRead_control (s : State) {r : RegName} {x : Word} (hr : r.isDatapath = false)
    (hx : regView s r = some x) : hostRead s (s.params.regBase + r.offset) 4 = .next (logRead s x) := by
  simp [hostRead_offset, readReg, hr, hx]

/-- A read while idle answers the register's value where it has one, and ends in UNINIT_READ where not (rule R46). -/
theorem hostRead_idle {s : State} (hb : s.status.busy = false) (r : RegName) {valid : Prop} [Decidable valid]
    {x : Word} (hx : regView s r = if valid then some x else none) :
    hostRead s (s.params.regBase + r.offset) 4 =
      if valid then .next (logRead s x) else .fault .uninitRead := by
  by_cases hv : valid <;> simp [hostRead_offset, readReg, hb, hx, hv]

/-- A read of a datapath register while busy draws a free value (rule R47). -/
theorem readReg_busy {s : State} {r : RegName} (hb : s.status.busy = true) (hr : r.isDatapath = true) :
    readReg s r = .next (drawRead s) := by
  simp [readReg, hb, hr]

/-- Everything a read that answers can do. -/
theorem readReg_next {s t : State} {r : RegName} (h : readReg s r = .next t) :
    t = drawRead s ∨ ∃ x, t = logRead s x := by
  simp only [readReg] at h
  split at h
  · cases h; exact Or.inl rfl
  · split at h <;> cases h
    exact Or.inr ⟨_, rfl⟩

/-- Everything a host read that answers can do: a free draw, or a value for the host. -/
theorem hostRead_next {s t : State} {addr size : Nat} (h : hostRead s addr size = .next t) :
    t = drawRead s ∨ ∃ x, t = logRead s x := by
  simp only [hostRead, readOffset] at h
  split at h
  · split at h
    · exact readReg_next h
    · cases h; exact Or.inr ⟨_, rfl⟩
  · cases h

/-- Settles O44: such a read finds CMD or no register; `hostWrite_ignored`; and `hostRead_next` for any read. -/
theorem reservedOffsetsAndReads : Obligations.ReservedOffsetsAndReads := by
  refine ⟨?_, fun s off v h4 h hoff => hostWrite_ignored s v h4 h hoff, ?_⟩
  · intro s off h4 hoff
    rcases hoff with rfl | hoff
    · exact hostRead_control s (r := .cmd) rfl rfl
    · have hlt : off < 0x200 := by omega
      exact hostRead_reserved s h4 hlt ((regAt_eq_none h4 hlt).mpr hoff)
  · intro s t addr size h
    rcases hostRead_next h with rfl | ⟨x, rfl⟩ <;> rfl

theorem lowHalf_toNat (x : DWord) : (lowHalf x).toNat = x.toNat % 2 ^ 32 := by
  simp [lowHalf, BitVec.extractLsb'_toNat]

theorem highHalf_toNat (x : DWord) : (highHalf x).toNat = x.toNat / 2 ^ 32 := by
  have hx := x.isLt
  simp only [highHalf, BitVec.extractLsb'_toNat, Nat.shiftRight_eq_div_pow]
  omega

/-- Settles O45: each register is valid exactly where the valid bits its view asks for are set. -/
theorem idleReads : Obligations.IdleReads := by
  intro s hb
  exact ⟨fun j => hostRead_idle hb (.hWord j) rfl,
    fun j => hostRead_idle hb (.vWord j) rfl,
    fun j => hostRead_idle hb (.wWord j) rfl,
    fun k => hostRead_idle hb (.digestWord k) rfl,
    fun k => hostRead_idle hb (.mWord k) rfl,
    hostRead_control s (r := .status) rfl rfl,
    ⟨_, hostRead_control s (r := .srcLo) rfl rfl, lowHalf_toNat _⟩,
    ⟨_, hostRead_control s (r := .srcHi) rfl rfl, highHalf_toNat _⟩,
    ⟨_, hostRead_control s (r := .lenLo) rfl rfl, lowHalf_toNat _⟩,
    ⟨_, hostRead_control s (r := .lenHi) rfl rfl, highHalf_toNat _⟩⟩

/-- Settles O46: the datapath ranges hold datapath registers only, and the others answer as always. -/
theorem busyReads : Obligations.BusyReads := by
  intro s hb
  refine ⟨?_, hostRead_control s (r := .status) rfl rfl,
    ⟨_, hostRead_control s (r := .srcLo) rfl rfl, lowHalf_toNat _⟩,
    ⟨_, hostRead_control s (r := .srcHi) rfl rfl, highHalf_toNat _⟩,
    ⟨_, hostRead_control s (r := .lenLo) rfl rfl, lowHalf_toNat _⟩,
    ⟨_, hostRead_control s (r := .lenHi) rfl rfl, highHalf_toNat _⟩⟩
  intro off h4 hoff
  obtain ⟨r, hr, hd⟩ := regAt_datapath h4 hoff
  rw [hostRead_reg s h4 (by omega) hr]
  exact readReg_busy hb hd

/-! ## The input memory -/

/-- A read of the input memory depends on its bytes and on which addresses are admitted. -/
theorem memRead_congr {s t : State} (hp : t.params = s.params) (hm : t.mem = s.mem) (a : Nat) :
    memRead t a = memRead s a := by
  simp only [memRead, hp, hm]

theorem issueIllegal_next {s t : State} (h : issueIllegal s = .next t) : ∃ code, t = rejectAccess s code := by
  simp only [issueIllegal] at h
  split at h <;> cases h
  · exact ⟨_, rfl⟩
  · exact ⟨_, rfl⟩

/-- A presented command that faults nowhere is rejected or accepted, and nothing else (rules R58, R60, R61). -/
theorem exec_next {i : Instr} {s t : State} (h : exec i s = .next t) :
    (∃ code, t = rejectAccess s code) ∨ ∃ q sp, t = startCommand s q sp := by
  rw [exec_eq] at h
  split at h
  · rcases issue_next h with ⟨-, rfl⟩ | ⟨-, -, rfl⟩
    · exact Or.inl ⟨_, rfl⟩
    · exact Or.inr ⟨_, _, rfl⟩
  · exact Or.inl (issueIllegal_next h)

theorem exec_keeps_memory {i : Instr} {s t : State} (h : exec i s = .next t) :
    t.params = s.params ∧ t.mem = s.mem := by
  rcases exec_next h with ⟨code, rfl⟩ | ⟨q, sp, rfl⟩
  · exact ⟨rfl, rfl⟩
  · exact ⟨rfl, rfl⟩

theorem engineTurn_keeps_memory {s t : State} (h : engineTurn s = .next t) :
    t.params = s.params ∧ t.mem = s.mem := by
  rcases engineTurn_next h with ⟨-, rfl⟩ | ⟨-, -, rfl⟩ | ⟨u, rest, -, -, -, rfl⟩ | ⟨u, rest, r, -, -, hp, rfl⟩
  · exact ⟨rfl, rfl⟩
  · exact ⟨rfl, rfl⟩
  · exact ⟨rfl, rfl⟩
  · obtain ⟨h', v', w', m', d', rfl⟩ := perform_done hp
    exact ⟨rfl, rfl⟩

/-- Settles O54: commands, engine turns and reset keep the memory and the admitted addresses. -/
theorem coreNeverWritesMemory : Obligations.CoreNeverWritesMemory := by
  refine ⟨fun i s t h => ?_, fun s t h => ?_, fun s t h => ?_⟩
  · obtain ⟨hp, hm⟩ := exec_keeps_memory h
    exact ⟨hm, memRead_congr hp hm⟩
  · obtain ⟨hp, hm⟩ := engineTurn_keeps_memory h
    exact ⟨hm, memRead_congr hp hm⟩
  · cases h
    exact ⟨rfl, memRead_congr rfl rfl⟩

end Sys2Proof.Machine

/-! # The command word (30_encoding.md) -/

namespace Sys2Proof

/-! ## The fields as numbers (rule R49) -/

theorem fieldOp_toNat (v : Word) : (fieldOp v).toNat = v.toNat % 16 := by
  simp [fieldOp, BitVec.extractLsb'_toNat]

theorem fieldRsv0_toNat (v : Word) : (fieldRsv0 v).toNat = v.toNat / 16 % 16 := by
  simp [fieldRsv0, BitVec.extractLsb'_toNat, Nat.shiftRight_eq_div_pow]

theorem fieldIdx_toNat (v : Word) : (fieldIdx v).toNat = v.toNat / 256 % 64 := by
  simp [fieldIdx, BitVec.extractLsb'_toNat, Nat.shiftRight_eq_div_pow]

theorem fieldRsv1_toNat (v : Word) : (fieldRsv1 v).toNat = v.toNat / 2 ^ 14 := by
  have hv := v.isLt
  simp only [fieldRsv1, BitVec.extractLsb'_toNat, Nat.shiftRight_eq_div_pow]
  omega

/-! ## Which words are illegal (rule R52) -/

/-- A field check that gives a command where it passes is an illegal word exactly where it fails. -/
theorem ite_cmd_illegal_iff (p : Prop) [Decidable p] (i : Instr) (reason : Illegal) :
    (∃ why, (if p then Decoded.cmd i else .illegal reason) = .illegal why) ↔ ¬p := by
  by_cases hp : p <;> simp [hp]

theorem noOperand_illegal_iff (idx : BitVec 6) (i : Instr) :
    (∃ why, noOperand idx i = .illegal why) ↔ idx.toNat ≠ 0 := by
  rw [noOperand, ite_cmd_illegal_iff, BitVec.toNat_eq]
  rfl

/-- The clauses of rule R52 that speak of `OP` and `IDX`. -/
theorem decodeOp_illegal_iff (op : BitVec 4) (idx : BitVec 6) :
    (∃ why, decodeOp op idx = .illegal why) ↔
      13 ≤ op.toNat ∨ (op.toNat ≠ 3 ∧ op.toNat ≠ 6 ∧ op.toNat ≠ 9 ∧ idx.toNat ≠ 0) ∨
        (op.toNat = 9 ∧ 1 < idx.toNat) := by
  unfold decodeOp
  split
  -- SCHEDW and ROUND take every `IDX`
  case h_4 h | h_7 h => simp [h]
  -- PADTAIL
  case h_10 h =>
    rw [ite_cmd_illegal_iff, h]
    omega
  -- the reserved opcodes
  case h_14 =>
    have h13 : 13 ≤ op.toNat := by by_contra; interval_cases op.toNat <;> contradiction
    exact iff_of_true ⟨_, rfl⟩ (.inl h13)
  -- the commands that take no operand
  all_goals
    rename_i h
    rw [noOperand_illegal_iff, h]
    omega

/-- A reserved field that is not 0 is illegal, whatever `OP` and `IDX` are; else these two decide. -/
theorem decode_illegal_iff (v : Word) :
    (∃ why, decode v = .illegal why) ↔
      (fieldRsv0 v).toNat ≠ 0 ∨ (fieldRsv1 v).toNat ≠ 0 ∨
        ∃ why, decodeOp (fieldOp v) (fieldIdx v) = .illegal why := by
  unfold decode
  split
  case isTrue h => exact iff_of_true ⟨_, rfl⟩ (.inl fun e => h (BitVec.eq_of_toNat_eq e))
  case isFalse h0 =>
    split
    case isTrue h => exact iff_of_true ⟨_, rfl⟩ (.inr (.inl fun e => h (BitVec.eq_of_toNat_eq e)))
    case isFalse h1 => simp [not_not.mp h0, not_not.mp h1]

end Sys2Proof

namespace Sys2Proof.Machine

/-! ## What writing one to CMD does (rules R60, R61) -/

/-- An illegal word at CMD is rejected with the code of the state it finds, and changes nothing else. -/
theorem hostWrite_illegal (s : State) {v : Word} {why : Illegal} (h : decode v = .illegal why) :
    hostWrite s (s.params.regBase + 0x000) 4 v =
      .next (rejectAccess s (if s.status.busy then .cmdWhileBusy else .illegalCmd)) := by
  rw [hostWrite_reg s v (r := .cmd) (by decide) (by decide) rfl]
  simp only [writeReg, writeCmd, h, issueIllegal]
  split <;> rfl

/-- Settles O3: the decoder's verdict by the four fields as numbers, and `hostWrite_illegal` while idle and while busy. -/
theorem illegalWordsAreRejected : Obligations.IllegalWordsAreRejected := by
  refine ⟨fun v => ?_, fun s v why h hb => ?_, fun s v why h hb => ?_⟩
  · rw [decode_illegal_iff, decodeOp_illegal_iff, fieldOp_toNat, fieldRsv0_toNat, fieldIdx_toNat, fieldRsv1_toNat]
    tauto
  · rw [hostWrite_illegal s h, hb]
    rfl
  · rw [hostWrite_illegal s h, hb]
    rfl

end Sys2Proof.Machine

/-! # The command protocol (40_command_protocol.md) -/

namespace Sys2Proof

/-! ## The word of a command reads back (rules R49, R51) -/

theorem encode_toNat (i : Instr) : (encode i).toNat = i.idx.toNat * 256 + i.opcode.toNat := by
  have hop := i.opcode.isLt
  simp only [encode, BitVec.toNat_append]
  rw [← Nat.shiftLeft_add_eq_or_of_lt hop]
  simp only [BitVec.toNat_ofNat, Nat.zero_mod, Nat.zero_mul, Nat.zero_or, Nat.or_zero, Nat.shiftLeft_eq]
  omega

theorem fieldOp_encode (i : Instr) : fieldOp (encode i) = i.opcode := by
  have hop := i.opcode.isLt
  apply BitVec.eq_of_toNat_eq
  rw [fieldOp_toNat, encode_toNat]
  omega

theorem fieldRsv0_encode (i : Instr) : fieldRsv0 (encode i) = 0#4 := by
  have hop := i.opcode.isLt
  apply BitVec.eq_of_toNat_eq
  rw [fieldRsv0_toNat, encode_toNat, BitVec.toNat_ofNat]
  omega

theorem fieldIdx_encode (i : Instr) : fieldIdx (encode i) = i.idx := by
  have hop := i.opcode.isLt
  have hidx := i.idx.isLt
  apply BitVec.eq_of_toNat_eq
  rw [fieldIdx_toNat, encode_toNat]
  omega

theorem fieldRsv1_encode (i : Instr) : fieldRsv1 (encode i) = 0#18 := by
  have hop := i.opcode.isLt
  have hidx := i.idx.isLt
  apply BitVec.eq_of_toNat_eq
  rw [fieldRsv1_toNat, encode_toNat, BitVec.toNat_ofNat]
  omega

/-- The opcode map gives back the command whose opcode and operand it is asked for. -/
theorem decodeOp_opcode {i : Instr} (hw : i.WellFormed = true) : decodeOp i.opcode i.idx = .cmd i := by
  cases i with
  | padtail t => exact if_pos (of_decide_eq_true hw)
  | _ => rfl

theorem decode_encode {i : Instr} (hw : i.WellFormed = true) : decode (encode i) = .cmd i := by
  rw [decode, fieldRsv0_encode, fieldRsv1_encode, fieldOp_encode, fieldIdx_encode, decodeOp_opcode hw]
  rfl

end Sys2Proof

namespace Sys2Proof.Machine

/-! ## The contract check (rule R59) -/

/-- `check_contract` passes exactly where the command's reads stay below `2^ADDR_W` and its length below `2^61`. -/
theorem contractOf_eq_none {i : Instr} {s : State} :
    contractOf i s = none ↔
      (i = .loadblk → srcAddr s + 64 ≤ 2 ^ s.params.addrW) ∧
        ((i = .compute ∨ ∃ t, i = .padtail t) → lenOf s < 2 ^ 61 ∧ srcAddr s + lenOf s ≤ 2 ^ s.params.addrW) := by
  cases i with
  | padtail t | compute =>
    simp only [contractOf]
    split_ifs <;> simp <;> omega
  | _ => simp [contractOf]

/-- On an idle core a command faults exactly where its contract check does, with that fault. -/
theorem exec_fault_iff {i : Instr} {s : State} {f : Fault} (hw : i.WellFormed = true) (hb : s.status.busy = false) :
    exec i s = .fault f ↔ contractOf i s = some f := by
  rw [exec_eq, if_pos hw]
  cases hc : contractOf i s with
  | none => simp [issue_accepts hb hc]
  | some g => simp [issue_faults hb hc]

/-- A word at CMD faults for its command's contract alone: an illegal one is rejected. -/
theorem contractOf_of_exec_fault {i : Instr} {s : State} {f : Fault} (hb : s.status.busy = false)
    (h : exec i s = .fault f) : contractOf i s = some f := by
  cases hw : i.WellFormed with
  | true => exact (exec_fault_iff hw hb).mp h
  | false => simp [exec_eq, hw, issueIllegal, hb] at h

/-- COMPUTE and both forms of PADTAIL have one contract, and so fault alike. -/
theorem message_commands_fault {s : State} {f : Fault} (hb : s.status.busy = false)
    (hc : contractOf .compute s = some f) :
    exec .compute s = .fault f ∧ ∀ t : BitVec 6, t.toNat ≤ 1 → exec (.padtail t) s = .fault f := by
  refine ⟨(exec_fault_iff rfl hb).mpr hc, fun t ht => ?_⟩
  have hw : (Instr.padtail t).WellFormed = true := decide_eq_true ht
  exact (exec_fault_iff hw hb).mpr hc

/-- Settles O37: a command faults where `contractOf` does, whose branches stand in the order of rule R111. -/
theorem contractBreaksFault : Obligations.ContractBreaksFault := by
  intro s hb
  refine ⟨fun hl => ?_, fun ha => ?_, fun hl ha => ?_, fun i f h => ?_⟩
  · exact message_commands_fault hb (if_pos hl)
  · exact (exec_fault_iff rfl hb).mpr (if_pos ha)
  · have hc : contractOf .compute s = some .contractAddr := by
      rw [contractOf, if_neg (Nat.not_le.mpr hl), if_pos ha]
    exact message_commands_fault hb hc
  · by_contra hn
    have hnone : contractOf i s = none := by
      refine contractOf_eq_none.mpr ⟨fun hi => ?_, fun hi => ⟨?_, ?_⟩⟩
      · exact Nat.not_lt.mp fun ha => hn (.inl ⟨hi, ha⟩)
      · exact Nat.not_le.mp fun hl => hn (.inr ⟨hi, .inl hl⟩)
      · exact Nat.not_lt.mp fun ha => hn (.inr ⟨hi, .inr ha⟩)
    cases hnone.symm.trans (contractOf_of_exec_fault hb h)

/-! ## Acceptance (rule R58) -/

theorem hostWrite_cmd (s : State) (v : Word) : hostWrite s (s.params.regBase + 0x000) 4 v = writeCmd s v :=
  hostWrite_reg s v (r := .cmd) (by decide) (by decide) rfl

/-- A host write of a command's word to CMD presents that command. -/
theorem hostWrite_encode (s : State) {i : Instr} (hw : i.WellFormed = true) :
    hostWrite s (s.params.regBase + 0x000) 4 (encode i) = exec i s := by
  rw [hostWrite_cmd, writeCmd, decode_encode hw]

/-- Settles O34: the contract check passes, and `spanOf` gives every command the span written out. -/
theorem commandsAreAccepted : Obligations.CommandsAreAccepted := by
  intro i s hw hb hload hmsg
  have he := exec_accepts hw hb (contractOf_eq_none.mpr ⟨hload, hmsg⟩)
  refine ⟨_, he, (hostWrite_encode s hw).trans he, ?_⟩
  cases i <;> rfl

/-! ## The expansions (rule R63) -/

/-- The steps of the full blocks, as a list over the blocks' numbers. -/
theorem fullBlockSteps_eq_flatMap (n addr : Nat) :
    fullBlockSteps n addr = (List.range n).flatMap fun b => .uLoad (addr + 64 * b) :: blkSteps := by
  induction n generalizing addr with
  | zero => rfl
  | succ n ih =>
    have haddr (b : Nat) : addr + 64 + 64 * b = addr + 64 * (b + 1) := by omega
    simp [fullBlockSteps, ih, List.range_succ_eq_map, List.flatMap_map, haddr]

/-- BLK with its parts written out, in the order schedule, `uVINIT`, rounds, `uFOLD`. -/
theorem blkSteps_eq : blkSteps = schedSteps ++ [.uVinit] ++ roundSteps ++ [.uFold] := by
  simp [blkSteps, compressSteps]

/-- COMPUTE's list over its full blocks and its one or two tail blocks. -/
theorem computeSteps_eq (addr L : Nat) :
    computeSteps addr L =
      [.uInit] ++ (List.range (L / 64)).flatMap (fun b => .uLoad (addr + 64 * b) :: blkSteps) ++ [.uPad 0] ++
        blkSteps ++ (if 56 ≤ L % 64 then [.uPad 1] ++ blkSteps else []) ++ [.uSer] := by
  simp [computeSteps, tailSteps, fullBlockSteps_eq_flatMap]

/-- Settles O35: every row is its command's own list; BLK and COMPUTE by `blkSteps_eq` and `computeSteps_eq`. -/
theorem expansionTable : Obligations.ExpansionTable := by
  rintro s sched rounds blk n R rfl rfl hblk rfl rfl
  obtain rfl : blk = blkSteps := hblk.trans blkSteps_eq.symm
  exact ⟨rfl, rfl, rfl, fun _ => rfl, rfl, rfl, fun _ => rfl, rfl, rfl, rfl, rfl, rfl, rfl, computeSteps_eq _ _⟩

/-! ## Rejection while busy (rules R61, R62) -/

theorem exec_busy (i : Instr) {s : State} (hb : s.status.busy = true) :
    exec i s = .next (rejectAccess s .cmdWhileBusy) := by
  rw [exec_eq]
  split
  · exact issue_busy hb
  · exact if_pos hb

/-- While busy a word at CMD is rejected with one code, legal or not. -/
theorem writeCmd_busy {s : State} (v : Word) (hb : s.status.busy = true) :
    writeCmd s v = .next (rejectAccess s .cmdWhileBusy) := by
  rw [writeCmd]
  split
  · exact exec_busy _ hb
  · exact if_pos hb

/-- Settles O38 by `writeCmd_busy`. -/
theorem busyCommandsAreRejected : Obligations.BusyCommandsAreRejected := by
  intro s v hb
  rw [hostWrite_cmd, writeCmd_busy v hb]
  rfl

theorem writeOperand_busy {s : State} (stored : State) (hb : s.status.busy = true) :
    writeOperand s stored = .next (rejectAccess s .writeWhileBusy) := if_pos hb

theorem writeOperand_idle {s : State} (stored : State) (hb : s.status.busy = false) :
    writeOperand s stored = .next stored := by
  simp [writeOperand, hb]

/-! ## What a move while busy leaves alone -/

/-- A register write while busy is rejected or ignored. -/
theorem writeReg_busy {s : State} (r : RegName) (v : Word) (hb : s.status.busy = true) :
    (∃ code, writeReg s r v = .next (rejectAccess s code)) ∨ writeReg s r v = .next s := by
  cases r with
  | cmd => exact .inl ⟨_, writeCmd_busy v hb⟩
  | srcLo | srcHi | lenLo | lenHi => exact .inl ⟨_, writeOperand_busy _ hb⟩
  | status | hWord j | vWord j | digestWord k | mWord k | wWord j => exact .inr rfl

/-- Everything a host write while busy that answers can do. -/
theorem hostWrite_busy_next {s t : State} {addr size : Nat} {v : Word} (hb : s.status.busy = true)
    (h : hostWrite s addr size v = .next t) : (∃ code, t = rejectAccess s code) ∨ t = s := by
  simp only [hostWrite, writeOffset] at h
  split at h
  · split at h
    · rename_i r _
      rcases writeReg_busy r v hb with ⟨code, hr⟩ | hr <;> rw [hr] at h <;> cases h
      · exact .inl ⟨code, rfl⟩
      · exact .inr rfl
    · cases h; exact .inr rfl
  · cases h

/-- While busy a host operation changes nothing but the input memory, ERR, ERRCODE and the environment's own fields. -/
theorem hostStep_busy_frame {s t : State} {op : HostOp} (hb : s.status.busy = true) (h : hostStep op s = .next t) :
    t = { s with
      mem := t.mem
      status := { s.status with err := t.status.err, errCode := t.status.errCode }
      script := t.script, readLog := t.readLog, draws := t.draws } := by
  cases op with
  | wr addr size v => rcases hostWrite_busy_next hb h with ⟨code, rfl⟩ | rfl <;> rfl
  | rd addr size => rcases hostRead_next h with rfl | ⟨x, rfl⟩ <;> rfl
  | memw addr v =>
    obtain ⟨-, ⟨-, rfl⟩ | ⟨-, rfl⟩⟩ := hostMemWrite_next h
    · rfl
    · rfl
  | wait =>
    simp only [hostStep, hostWait] at h
    split at h <;> cases h <;> rfl

theorem engineTurn_keeps_operands {s t : State} (h : engineTurn s = .next t) : t.src = s.src ∧ t.len = s.len := by
  rcases engineTurn_next h with ⟨-, rfl⟩ | ⟨-, -, rfl⟩ | ⟨u, rest, -, -, -, rfl⟩ | ⟨u, rest, r, -, -, hp, rfl⟩
  · exact ⟨rfl, rfl⟩
  · exact ⟨rfl, rfl⟩
  · exact ⟨rfl, rfl⟩
  · obtain ⟨h', v', w', m', d', rfl⟩ := perform_done hp
    exact ⟨rfl, rfl⟩

theorem runEvent_busy_keeps_operands {e : Event} {s t : State} (hb : s.status.busy = true)
    (h : runEvent e s = .next t) (he : e ≠ .reset) : t.src = s.src ∧ t.len = s.len := by
  cases e with
  | host op =>
    rw [hostStep_busy_frame hb h]
    exact ⟨rfl, rfl⟩
  | engine => exact engineTurn_keeps_operands h
  | reset => exact absurd rfl he

/-! ## The halves of SRC and LEN (rules R22, R23, R62) -/

section
variable (s : State) (v : Word)

theorem hostWrite_srcLo : hostWrite s (s.params.regBase + 0x008) 4 v =
    writeOperand s (s.setSrc (wireSrc s.params (setLowHalf (srcOf s) v))) :=
  hostWrite_reg s v (r := .srcLo) (by decide) (by decide) rfl

theorem hostWrite_srcHi : hostWrite s (s.params.regBase + 0x00C) 4 v =
    writeOperand s (s.setSrc (wireSrc s.params (setHighHalf (srcOf s) v))) :=
  hostWrite_reg s v (r := .srcHi) (by decide) (by decide) rfl

theorem hostWrite_lenLo : hostWrite s (s.params.regBase + 0x010) 4 v =
    writeOperand s (s.setLen (setLowHalf s.len v)) :=
  hostWrite_reg s v (r := .lenLo) (by decide) (by decide) rfl

theorem hostWrite_lenHi : hostWrite s (s.params.regBase + 0x014) 4 v =
    writeOperand s (s.setLen (setHighHalf s.len v)) :=
  hostWrite_reg s v (r := .lenHi) (by decide) (by decide) rfl

end

/-- A write to a half of SRC or LEN while busy is rejected. -/
theorem hostWrite_operand_busy {s : State} {off : Nat} (v : Word)
    (hoff : off = 0x008 ∨ off = 0x00C ∨ off = 0x010 ∨ off = 0x014) (hb : s.status.busy = true) :
    hostWrite s (s.params.regBase + off) 4 v = .next (rejectAccess s .writeWhileBusy) := by
  rcases hoff with rfl | rfl | rfl | rfl
  · rw [hostWrite_srcLo, writeOperand_busy _ hb]
  · rw [hostWrite_srcHi, writeOperand_busy _ hb]
  · rw [hostWrite_lenLo, writeOperand_busy _ hb]
  · rw [hostWrite_lenHi, writeOperand_busy _ hb]

/-- Settles O39: an idle write stores the register with one half replaced, read as a number by the laws of the halves. -/
theorem operandWrites : Obligations.OperandWrites := by
  refine ⟨fun s off v hoff hb => hostWrite_operand_busy v hoff hb,
    fun e s t hb h he => runEvent_busy_keeps_operands hb h he, fun s v hb => ⟨?_, ?_, ?_, ?_⟩⟩
  · refine ⟨_, (hostWrite_srcLo s v).trans (writeOperand_idle _ hb), ?_⟩
    rw [wireSrc_toNat, setLowHalf_toNat, srcAddr]
  · refine ⟨_, (hostWrite_srcHi s v).trans (writeOperand_idle _ hb), ?_⟩
    rw [wireSrc_toNat, setHighHalf_toNat, srcAddr]
  · exact ⟨_, (hostWrite_lenLo s v).trans (writeOperand_idle _ hb), setLowHalf_toNat _ _⟩
  · exact ⟨_, (hostWrite_lenHi s v).trans (writeOperand_idle _ hb), setHighHalf_toNat _ _⟩

/-! ## Completion (rule R65) -/

/-- Settles O51: with no micro-step left the turn is the completion step. -/
theorem engineCompletion : Obligations.EngineCompletion := by
  intro s hb hq
  rw [engineTurn_complete hb hq]
  rfl

end Sys2Proof.Machine

/-! # The endian codec (41_endian_codec.md) -/

namespace Sys2Proof.Machine

/-! ## The load (rule R68) -/

/-- Appending a byte below a value, as a number. -/
theorem append_byte_toNat {w : Nat} (x : BitVec w) (b : Byte) : (x ++ b).toNat = x.toNat * 2 ^ 8 + b.toNat := by
  rw [BitVec.toNat_append, ← Nat.shiftLeft_add_eq_or_of_lt b.isLt, Nat.shiftLeft_eq]

theorem loadBe32_toNat {n : Nat} (buf : Vector Byte n) (o : Nat) (ho : o + 3 < n) :
    (loadBe32 buf o ho).toNat =
      buf[o].toNat * 2 ^ 24 + buf[o + 1].toNat * 2 ^ 16 + buf[o + 2].toNat * 2 ^ 8 + buf[o + 3].toNat := by
  simp only [loadBe32, append_byte_toNat]
  ring

theorem RegFile.load32_eq_none {n : Nat} {f : RegFile 8 n} {o : Nat} {ho : o + 3 < n} :
    f.load32 o ho = none ↔ f.valid[o] = false ∨ f.valid[o + 1] = false ∨ f.valid[o + 2] = false ∨
      f.valid[o + 3] = false := by
  simp only [RegFile.load32, ite_eq_right_iff, reduceCtorEq, imp_false, not_and_or, Bool.not_eq_true]

theorem RegFile.load32_eq_some {n : Nat} {f : RegFile 8 n} {o : Nat} {ho : o + 3 < n} (h : f.load32 o ho ≠ none) :
    f.load32 o ho = some (loadBe32 f.bits o ho) := by
  simp only [RegFile.load32] at h ⊢
  exact if_pos (by_contra fun hv => h (if_neg hv))

/-- Settles O14: four appended bytes as a number, and the load's one test of the four valid bits. -/
theorem loadIsBigEndian : Obligations.LoadIsBigEndian :=
  ⟨fun _ => loadBe32_toNat, fun _ _ _ _ => ⟨RegFile.load32_eq_none, RegFile.load32_eq_some⟩⟩

/-! ## The stores (rules R69 and R70) -/

theorem wordByte_eq (v : Word) (k : Nat) : wordByte v k = BitVec.ofNat 8 (v.toNat / 2 ^ (8 * (3 - k))) := by
  rw [wordByte, BitVec.extractLsb', Nat.shiftRight_eq_div_pow, Nat.mul_sub]

theorem dwordByte_eq (v : DWord) (k : Nat) : dwordByte v k = BitVec.ofNat 8 (v.toNat / 2 ^ (8 * (7 - k))) := by
  rw [dwordByte, BitVec.extractLsb', Nat.shiftRight_eq_div_pow, Nat.mul_sub]

theorem storeBe32_getElem {n : Nat} (buf : Vector Byte n) (o : Nat) (v : Word) (j : Nat) (hj : j < n) :
    (storeBe32 buf o v)[j] = if o ≤ j ∧ j < o + 4 then wordByte v (j - o) else buf[j] :=
  Vector.getElem_ofFn hj

theorem storeBe64_getElem {n : Nat} (buf : Vector Byte n) (o : Nat) (v : DWord) (j : Nat) (hj : j < n) :
    (storeBe64 buf o v)[j] = if o ≤ j ∧ j < o + 8 then dwordByte v (j - o) else buf[j] :=
  Vector.getElem_ofFn hj

theorem RegFile.store32_valid {n : Nat} (f : RegFile 8 n) (o : Nat) (v : Word) (j : Nat) (hj : j < n) :
    (f.store32 o v).valid[j] = if o ≤ j ∧ j < o + 4 then true else f.valid[j] :=
  Vector.getElem_ofFn hj

@[simp] theorem RegFile.store32_bits {n : Nat} (f : RegFile 8 n) (o : Nat) (v : Word) :
    (f.store32 o v).bits = storeBe32 f.bits o v := rfl

/-- Settles O15: each store element by element, with the stored byte read by division. -/
theorem storeIsBigEndian : Obligations.StoreIsBigEndian := by
  refine ⟨fun n f o v j hj => ⟨?_, RegFile.store32_valid f o v j hj⟩, fun n buf o v j hj => ?_⟩
  · simp only [RegFile.store32_bits, storeBe32_getElem, wordByte_eq]
  · rw [storeBe64_getElem, dwordByte_eq]

end Sys2Proof.Machine

/-! # Block formation and padding (42_blocks_and_padding.md) -/

namespace Sys2Proof.Machine

/-! ## The block list (rule R74) -/

theorem blockCount_eq (L : Nat) : blockCount L = if L % 64 < 56 then L / 64 + 1 else L / 64 + 2 := by
  rw [blockCount, tailCount, apply_ite (L / 64 + ·)]

@[simp] theorem blocks_length (msg : Nat → Byte) (L : Nat) : (blocks msg L).length = blockCount L := by
  simp [blocks]

@[simp] theorem blocks_getElem (msg : Nat → Byte) (L b : Nat) (hb : b < (blocks msg L).length) :
    (blocks msg L)[b] = blockAt msg L b := by
  simp [blocks]

/-- The kinds a block of the sequence can be of: full, the tail block holding the length, the staging block alone, and
the length-only block after it. -/
theorem blockAt_cases (msg : Nat → Byte) {L b : Nat} (hb : b < blockCount L) :
    (b < L / 64 ∧ blockAt msg L b = fullBlock msg b) ∨
    (L % 64 < 56 ∧ b = L / 64 ∧ b + 1 = blockCount L ∧
      blockAt msg L b = storeBe64 (stagingBytes msg L) 56 (bitLength L)) ∨
    (56 ≤ L % 64 ∧ b = L / 64 ∧ b + 1 ≠ blockCount L ∧ blockAt msg L b = stagingBytes msg L) ∨
    (56 ≤ L % 64 ∧ b = L / 64 + 1 ∧ b + 1 = blockCount L ∧
      blockAt msg L b = storeBe64 (Vector.replicate 64 0x00#8) 56 (bitLength L)) := by
  rw [blockCount_eq] at hb ⊢
  rcases Nat.lt_trichotomy b (L / 64) with h | rfl | h
  · exact .inl ⟨h, if_pos h⟩
  · have hat : blockAt msg L (L / 64) = tailBlock0 msg L := by simp [blockAt]
    by_cases h56 : L % 64 < 56
    · exact .inr (.inl ⟨h56, rfl, by simp [h56], by rw [hat, tailBlock0, if_pos h56]⟩)
    · exact .inr (.inr (.inl ⟨by omega, rfl, by simp [h56], by rw [hat, tailBlock0, if_neg h56]⟩))
  · have h56 : ¬ L % 64 < 56 := fun h56 => by rw [if_pos h56] at hb; omega
    rw [if_neg h56] at hb ⊢
    have hat : blockAt msg L b = tailBlock1 L := by rw [blockAt, if_neg (by omega), if_neg (by omega)]
    exact .inr (.inr (.inr ⟨by omega, by omega, by omega, by rw [hat, tailBlock1]⟩))

/-! ## The bytes of a block (rules R73 and R76) -/

theorem fullBlock_getElem (msg : Nat → Byte) (b j : Nat) (hj : j < 64) : (fullBlock msg b)[j] = msg (64 * b + j) := by
  simp only [fullBlock, Vector.getElem_ofFn]

/-- The staging block, its positions counted from the start of the message. -/
theorem stagingBytes_getElem (msg : Nat → Byte) (L j : Nat) (hj : j < 64) :
    (stagingBytes msg L)[j] =
      if 64 * (L / 64) + j < L then msg (64 * (L / 64) + j) else if 64 * (L / 64) + j = L then 0x80#8 else 0x00#8 := by
  have hlt : j < L % 64 ↔ 64 * (L / 64) + j < L := by omega
  have heq : j = L % 64 ↔ 64 * (L / 64) + j = L := by omega
  simp only [stagingBytes, Vector.getElem_ofFn, hlt, heq]

theorem bitLength_toNat {L : Nat} (hL : L < 2 ^ 61) : (bitLength L).toNat = L * 8 := by
  rw [bitLength, BitVec.toNat_ofNat, Nat.mod_eq_of_lt (by omega)]

/-- A block with the length stored in its last eight bytes. -/
theorem storeBe64_bitLength_getElem (buf : Vector Byte 64) {L : Nat} (hL : L < 2 ^ 61) (j : Nat) (hj : j < 64) :
    (storeBe64 buf 56 (bitLength L))[j] =
      if 56 ≤ j then BitVec.ofNat 8 (L * 8 / 2 ^ (8 * (63 - j))) else buf[j] := by
  have hlast : (56 ≤ j ∧ j < 56 + 8) ↔ 56 ≤ j := by omega
  rw [storeBe64_getElem, dwordByte_eq, bitLength_toNat hL]
  simp only [hlast]
  split
  · rw [show 7 - (j - 56) = 63 - j by omega]
  · rfl

/-- Byte `j` of block `b`, in each of the kinds of block. -/
theorem blockAt_getElem (msg : Nat → Byte) {L b : Nat} (hb : b < blockCount L) (hL : L < 2 ^ 61) (j : Nat)
    (hj : j < 64) : (blockAt msg L b)[j] =
      if 64 * b + j < L then msg (64 * b + j)
      else if 64 * b + j = L then 0x80#8
      else if b + 1 = blockCount L ∧ 56 ≤ j then BitVec.ofNat 8 (L * 8 / 2 ^ (8 * (63 - j)))
      else 0x00#8 := by
  rcases blockAt_cases msg hb with ⟨h, hat⟩ | ⟨h56, rfl, hlast, hat⟩ | ⟨-, rfl, hlast, hat⟩ | ⟨h56, rfl, hlast, hat⟩ <;>
    rw [hat]
  · rw [fullBlock_getElem, if_pos (by omega)]
  · rw [storeBe64_bitLength_getElem _ hL, stagingBytes_getElem]
    simp only [hlast, true_and]
    by_cases hj56 : 56 ≤ j
    · rw [if_pos hj56, if_neg (by omega), if_neg (by omega), if_pos hj56]
    · simp only [if_neg hj56]
  · rw [stagingBytes_getElem]
    simp only [hlast, false_and, if_false]
  · rw [storeBe64_bitLength_getElem _ hL, Vector.getElem_replicate, if_neg (by omega : ¬ _ < L),
      if_neg (by omega : ¬ _ = L)]
    simp only [hlast, true_and]

/-- Settles O19: the blocks are counted by their list, and each byte is read by the kind of its block. -/
theorem paddedMessageBytes : Obligations.PaddedMessageBytes := by
  refine ⟨fun msg L => ?_, fun msg L b hb j hj hL => ?_⟩
  · rw [blocks_length, blockCount_eq]
  · simp only [blocks_length, blocks_getElem] at hb ⊢
    exact blockAt_getElem msg hb hL j hj

end Sys2Proof.Machine

/-! # The message schedule expander (43_schedule.md) -/

namespace Sys2Proof.Machine

/-! ## The functions (rules R80, R81, R85, R86) -/

/-- Settles O12: the formulas are the definitions, and each corner value is computed. -/
theorem mixingFunctions : Obligations.MixingFunctions :=
  ⟨fun _ => ⟨rfl, rfl, rfl, rfl⟩, by decide, by decide, by decide⟩

/-! ## The word `uSCHED` writes (rule R83) -/

theorem schedValue_of_lt (s : State) {i : Fin 64} (h : i.val < 16) :
    schedValue s i =
      if s.m.valid[4 * i.val] = true ∧ s.m.valid[4 * i.val + 1] = true ∧ s.m.valid[4 * i.val + 2] = true ∧
          s.m.valid[4 * i.val + 3] = true
      then some (loadBe32 s.m.bits (4 * i.val) (by omega)) else none := by
  rw [schedValue, dif_pos h, RegFile.load32]

theorem schedValue_of_ge (s : State) {i : Fin 64} (h : ¬ i.val < 16) :
    schedValue s i =
      if s.w.valid[i.val - 16] = true ∧ s.w.valid[i.val - 15] = true ∧ s.w.valid[i.val - 7] = true ∧
          s.w.valid[i.val - 2] = true
      then some (schedNext s.w.bits[i.val - 16] s.w.bits[i.val - 15] s.w.bits[i.val - 7] s.w.bits[i.val - 2])
      else none := by
  simp only [schedValue, dif_neg h, RegFile.get, Fin.getElem_fin]
  by_cases h16 : s.w.valid[i.val - 16] = true
  · by_cases h15 : s.w.valid[i.val - 15] = true
    · by_cases h7 : s.w.valid[i.val - 7] = true
      · by_cases h2 : s.w.valid[i.val - 2] = true <;> simp [h16, h15, h7, h2]
      · simp [h7]
    · simp [h15]
  · simp [h16]

/-! ## The command (rule R83) -/

/-- A command's word by its two fields, as a number (rule R51). -/
theorem encode_eq_ofNat (i : Instr) : encode i = BitVec.ofNat 32 (i.idx.toNat * 256 + i.opcode.toNat) := by
  rw [← encode_toNat, BitVec.ofNat_toNat, BitVec.setWidth_eq]

/-- SCHEDW from its acceptance to its end: the word `schedValue` gives, or UNINIT_READ where it gives none. -/
theorem schedw_runs {s : State} (i : Fin 64) (hb : s.status.busy = false) :
    ∃ t, exec (.schedw (BitVec.ofFin i)) s = .next t ∧
      engineRun 2 t = (schedValue s i).elim (.fault .uninitRead)
        fun x => .next (finished { s with w := s.w.set i x }) := by
  have hp : performAll (expansion (.schedw (BitVec.ofFin i)) s) s =
      (schedValue s i).elim .uninit fun x => .done (s.setW (s.w.set i x)) := by
    simp only [expansion, idxOf, performAll, perform, microSched]
    cases schedValue s i <;> rfl
  cases hv : schedValue s i with
  | some x => exact exec_runs rfl hb rfl (hp.trans (by rw [hv]; rfl)) rfl
  | none => exact exec_runs_uninit rfl hb rfl (hp.trans (by rw [hv]; rfl)) rfl

/-- Settles O23: one run for both kinds of word, and `schedValue` below 16 and from 16 on. -/
theorem schedwRuns : Obligations.SchedwRuns := by
  intro s i hb
  obtain ⟨t, hexec, hrun⟩ := schedw_runs i hb
  refine ⟨encode_eq_ofNat (.schedw (BitVec.ofFin i)) ▸ decode_encode rfl, t, hexec, hrun.trans ?_⟩
  by_cases h : i.val < 16
  · rw [dif_pos h, schedValue_of_lt s h]
    split <;> rfl
  · rw [dif_neg h, schedValue_of_ge s h]
    split <;> rfl

end Sys2Proof.Machine

/-! # The compression rounds (44_round.md) -/

namespace Sys2Proof.Machine

/-! ## A command that ends finished or in UNINIT_READ (rules R58, R64, R65) -/

/-- An accepted command from its acceptance to its end, where `P` says that everything its micro-steps read is written. -/
theorem exec_runs_ite {i : Instr} {s t : State} {n : Nat} {P : Prop} [Decidable P] (hw : i.WellFormed = true)
    (hb : s.status.busy = false) (hc : contractOf i s = none) (hdone : P → performAll (expansion i s) s = .done t)
    (huninit : ¬P → performAll (expansion i s) s = .uninit) (hn : n = (expansion i s).length + 1) :
    ∃ u, exec i s = .next u ∧ engineRun n u = if P then .next (finished t) else .fault .uninitRead := by
  by_cases hP : P
  · simpa only [if_pos hP] using exec_runs hw hb hc (hdone hP) hn
  · simpa only [if_neg hP] using exec_runs_uninit hw hb hc (huninit hP) hn

/-! ## VINIT (rule R90) -/

theorem performAll_vinit {s : State} (hh : s.h.Full) :
    performAll [.uVinit] s = .done (s.setV (RegFile.ofAll s.h.bits)) := by
  simp only [performAll, perform, microVinit, RegFile.getAll_of_full hh]

theorem performAll_vinit_uninit {s : State} (hh : ¬s.h.Full) : performAll [.uVinit] s = .uninit := by
  simp only [performAll, perform, microVinit, RegFile.getAll_eq_none.mpr hh]

/-- Settles O25: VINIT's one micro-step reads all of `H`. -/
theorem vinitRuns : Obligations.VinitRuns := fun _ hb =>
  ⟨decode_encode (i := .vinit) rfl, exec_runs_ite rfl hb rfl performAll_vinit performAll_vinit_uninit rfl⟩

/-! ## COMPRESS (rule R92) -/

/-- Settles O27: `performAll_compressSteps` where `H` and `W` are full, `performAll_compressSteps_uninit` where not. -/
theorem compressRuns : Obligations.CompressRuns := by
  intro s hb
  refine ⟨decode_encode (i := .compress) rfl, ?_⟩
  simp only [← compress.eq_1]
  exact exec_runs_ite rfl hb rfl (fun ⟨hh, hw⟩ => performAll_compressSteps hh hw) performAll_compressSteps_uninit rfl

end Sys2Proof.Machine

/-! # The hash engine (45_engine.md) -/

namespace Sys2Proof.Machine

/-! ## NOP (rule R93) -/

/-- Settles O20: there is no micro-step to perform. -/
theorem nopRuns : Obligations.NopRuns := fun _ hb =>
  ⟨decode_encode (i := .nop) rfl, exec_runs rfl hb rfl rfl rfl⟩

/-! ## INIT (rule R94) -/

/-- `uINIT` reads nothing, so it is performed in every state. -/
theorem performAll_init (s : State) : performAll [.uInit] s = .done (s.setH (RegFile.ofAll iv)) := rfl

/-- Settles O21: INIT's one micro-step writes `iv`, whose words the statement spells out. -/
theorem initRuns : Obligations.InitRuns := fun s hb =>
  ⟨decode_encode (i := .init) rfl, exec_runs rfl hb rfl (performAll_init s) rfl⟩

/-! ## FOLD (rule R95) -/

theorem performAll_fold {s : State} (hh : s.h.Full) (hv : s.v.Full) :
    performAll [.uFold] s = .done (s.setH (RegFile.ofAll (addStates s.h.bits s.v.bits))) := by
  simp only [performAll, perform, microFold, RegFile.getAll_of_full hh, RegFile.getAll_of_full hv]

theorem performAll_fold_uninit {s : State} (h : ¬(s.h.Full ∧ s.v.Full)) : performAll [.uFold] s = .uninit := by
  by_cases hh : s.h.Full
  · have hv : ¬s.v.Full := fun hv => h ⟨hh, hv⟩
    simp only [performAll, perform, microFold, RegFile.getAll_of_full hh, RegFile.getAll_eq_none.mpr hv]
  · simp only [performAll, perform, microFold, RegFile.getAll_eq_none.mpr hh]

/-- Settles O28: FOLD's one micro-step reads all of `H` and all of `V`. -/
theorem foldRuns : Obligations.FoldRuns := by
  intro s hb
  refine ⟨decode_encode (i := .fold) rfl, ?_⟩
  simp only [← addStates.eq_1]
  exact exec_runs_ite rfl hb rfl (fun ⟨hh, hv⟩ => performAll_fold hh hv) performAll_fold_uninit rfl

/-! ## SERIALIZE (rule R96) -/

/-- The four bytes of a word, appended from the most significant one on, are the word (rules R68, R69). -/
theorem wordByte_append (v : Word) :
    (wordByte v 0 ++ wordByte v 1 ++ wordByte v 2 ++ wordByte v 3 : BitVec (8 + 8 + 8 + 8)) = v := by
  have hv := v.isLt
  apply BitVec.eq_of_toNat_eq
  simp only [append_byte_toNat, wordByte_eq, BitVec.toNat_ofNat]
  omega

theorem serialBytes_getElem (x : Vector Word 8) (k : Nat) (hk : k < 32) :
    (serialBytes x)[k] = wordByte x[k / 4] (k % 4) := by
  simp only [serialBytes, Vector.getElem_ofFn]

/-- The bytes of a HashState read back as its words: each word fills its own four bytes, most significant first. -/
theorem loadBe32_serialBytes (x : Vector Word 8) (j : Nat) (hj : j < 8) :
    loadBe32 (serialBytes x) (4 * j) (by omega) = x[j] := by
  have hbyte (k : Nat) (hk : k < 4) : (serialBytes x)[4 * j + k] = wordByte x[j] k := by
    have hdiv : (4 * j + k) / 4 = j := by omega
    have hmod : (4 * j + k) % 4 = k := by omega
    simp only [serialBytes_getElem, hdiv, hmod]
  have hfirst : (serialBytes x)[4 * j] = wordByte x[j] 0 := hbyte 0 (by omega)
  rw [loadBe32, hfirst, hbyte 1 (by omega), hbyte 2 (by omega), hbyte 3 (by omega), wordByte_append]

theorem performAll_serialize {s : State} (hh : s.h.Full) :
    performAll [.uSer] s = .done (s.setD (RegFile.ofAll (serialBytes s.h.bits))) := by
  simp only [performAll, perform, microSer, RegFile.getAll_of_full hh, serializeInto_eq]

theorem performAll_serialize_uninit {s : State} (hh : ¬s.h.Full) : performAll [.uSer] s = .uninit := by
  simp only [performAll, perform, microSer, RegFile.getAll_eq_none.mpr hh]

/-- Settles O30: `serialBytes` is what SERIALIZE writes to `D`, and its words read back. -/
theorem serializeRuns : Obligations.SerializeRuns := by
  intro s hb
  obtain ⟨t, hexec, hrun⟩ :=
    exec_runs_ite (i := .serialize) rfl hb rfl performAll_serialize performAll_serialize_uninit rfl
  exact ⟨decode_encode (i := .serialize) rfl, t, hexec,
    fun hh => ⟨serialBytes s.h.bits, hrun.trans (if_pos hh), loadBe32_serialBytes s.h.bits⟩,
    fun hh => hrun.trans (if_neg hh)⟩

/-! ## BLOCK (rule R97) -/

/-- Settles O31: `performAll_blkSteps` where `M` and `H` are full, `performAll_blkSteps_uninit` where not. -/
theorem blockRuns : Obligations.BlockRuns := by
  intro s hb
  refine ⟨decode_encode (i := .block) rfl, ?_⟩
  simp only [← addStates.eq_1]
  exact exec_runs_ite rfl hb rfl (fun ⟨hm, hh⟩ => performAll_blkSteps hm hh) performAll_blkSteps_uninit
    (congrArg (· + 1) blkSteps_length.symm)

end Sys2Proof.Machine

/-! # Faults and rejected accesses (60_exceptions.md) -/

namespace Sys2Proof

/-! ## The decoder gives well-formed commands only (rule R52) -/

theorem noOperand_cmd {idx : BitVec 6} {i j : Instr} (h : noOperand idx i = .cmd j) : j = i := by
  unfold noOperand at h
  split at h <;> cases h
  rfl

theorem decodeOp_wellFormed {op : BitVec 4} {idx : BitVec 6} {i : Instr} (h : decodeOp op idx = .cmd i) :
    i.WellFormed = true := by
  unfold decodeOp at h
  split at h
  -- SCHEDW and ROUND take every `IDX`
  case h_4 | h_7 => cases h; rfl
  -- PADTAIL
  case h_10 =>
    split at h <;> cases h
    exact decide_eq_true ‹_›
  -- the reserved opcodes
  case h_14 => cases h
  -- the commands that take no operand
  all_goals
    cases noOperand_cmd h
    rfl

theorem decode_wellFormed {v : Word} {i : Instr} (h : decode v = .cmd i) : i.WellFormed = true := by
  unfold decode at h
  split at h
  · cases h
  · split at h
    · cases h
    · exact decodeOp_wellFormed h

end Sys2Proof

namespace Sys2Proof.Machine

/-! ## BUS_FORM (rule R109) -/

/-- Exactly the accesses of the form of rule R43 have an offset in the window. -/
theorem windowOffset_eq_some {s : State} {addr size off : Nat} :
    windowOffset s addr size = some off ↔
      addr = s.params.regBase + off ∧ size = 4 ∧ off % 4 = 0 ∧ off < 0x200 := by
  constructor
  · intro h
    unfold windowOffset at h
    split at h <;> cases h
    omega
  · rintro ⟨rfl, rfl, h4, hlt⟩
    exact windowOffset_at s h4 hlt

/-- Settles O47: an access of the wrong form has no offset in the window. -/
theorem wrongBusFormFaults : Obligations.WrongBusFormFaults := by
  intro s off size v hbad
  have hnone : windowOffset s (s.params.regBase + off) size = none := by
    refine Option.eq_none_iff_forall_ne_some.mpr fun off' h => ?_
    have hform := windowOffset_eq_some.mp h
    omega
  exact ⟨by rw [hostWrite, hnone], by rw [hostRead, hnone]⟩

/-! ## HOST_RACE (rule R108) -/

theorem Span.has_iff {sp : Span} {a : Nat} : sp.has a = true ↔ sp.base ≤ a ∧ a < sp.base + sp.size := by
  simp [Span.has]

/-- Settles O48: `Span.has` of an address of SPAN. -/
theorem writeInsideSpanRaces : Obligations.WriteInsideSpanRaces :=
  fun _ _ _ hb hlo hhi => if_pos ⟨hb, Span.has_iff.mpr ⟨hlo, hhi⟩⟩

/-! ## What changes ERR and ERRCODE (rule R101) -/

/-- Everything a word at CMD that answers can do to STATUS. -/
theorem writeCmd_next {s t : State} {v : Word} (h : writeCmd s v = .next t) :
    (s.status.busy = true ∧ t = rejectAccess s .cmdWhileBusy) ∨
      (s.status.busy = false ∧ (∃ why, decode v = .illegal why) ∧ t = rejectAccess s .illegalCmd) ∨
      (s.status.busy = false ∧ (∃ i, decode v = .cmd i) ∧ t.status = Status.accepted) := by
  cases hb : s.status.busy with
  | true =>
    rw [writeCmd_busy v hb] at h
    cases h
    exact .inl ⟨rfl, rfl⟩
  | false =>
    cases hd : decode v with
    | illegal why =>
      simp only [writeCmd, hd, issueIllegal, hb] at h
      cases h
      exact .inr (.inl ⟨rfl, ⟨why, rfl⟩, rfl⟩)
    | cmd i =>
      have hexec : exec i s = .next t := by simpa only [writeCmd, hd] using h
      rw [exec_eq, if_pos (decode_wellFormed hd)] at hexec
      rcases issue_next hexec with ⟨hbusy, -⟩ | ⟨-, -, rfl⟩
      · rw [hb] at hbusy
        cases hbusy
      · exact .inr (.inr ⟨rfl, ⟨i, rfl⟩, rfl⟩)

/-- A register write that answers is a word at CMD, a rejected write to SRC or LEN, or leaves STATUS alone. -/
theorem writeReg_next {s t : State} {r : RegName} {v : Word} (h : writeReg s r v = .next t) :
    (r = .cmd ∧ writeCmd s v = .next t) ∨
      (r.offset ∈ [0x008, 0x00C, 0x010, 0x014] ∧ s.status.busy = true ∧ t = rejectAccess s .writeWhileBusy) ∨
      t.status = s.status := by
  cases r with
  | cmd => exact .inl ⟨rfl, h⟩
  | srcLo | srcHi | lenLo | lenHi =>
    rcases writeOperand_cases h with ⟨hb, rfl⟩ | ⟨-, rfl⟩
    · exact .inr (.inl ⟨by decide, hb, rfl⟩)
    · exact .inr (.inr rfl)
  | status | hWord j | vWord j | digestWord k | mWord k | wWord j =>
    cases h
    exact .inr (.inr rfl)

/-- A host write that answers is a 32-bit write to a register at its offset, or changes nothing. -/
theorem hostWrite_next {s t : State} {addr size : Nat} {v : Word} (h : hostWrite s addr size v = .next t) :
    (∃ r : RegName, addr = s.params.regBase + r.offset ∧ size = 4 ∧ writeReg s r v = .next t) ∨ t = s := by
  simp only [hostWrite, writeOffset] at h
  split at h
  case h_1 off hoff =>
    obtain ⟨haddr, hsize, h4, -⟩ := windowOffset_eq_some.mp hoff
    split at h
    case h_1 r hr =>
      rw [offset_of_regAt h4 hr] at haddr
      exact .inl ⟨r, haddr, hsize, h⟩
    case h_2 =>
      cases h
      exact .inr rfl
  case h_2 => cases h

/-- The only host operation that changes STATUS is a register write. -/
theorem hostStep_status_change {s t : State} {op : HostOp} (h : hostStep op s = .next t)
    (hne : t.status ≠ s.status) : ∃ addr size v, op = .wr addr size v ∧ hostWrite s addr size v = .next t := by
  cases op with
  | wr addr size v => exact ⟨addr, size, v, rfl, h⟩
  | rd addr size => rcases hostRead_next h with rfl | ⟨x, rfl⟩ <;> exact absurd rfl hne
  | memw addr v => obtain ⟨-, ⟨-, rfl⟩ | ⟨-, rfl⟩⟩ := hostMemWrite_next h <;> exact absurd rfl hne
  | wait =>
    simp only [hostStep, hostWait] at h
    split at h <;> cases h <;> exact absurd rfl hne

/-- The engine's turn keeps ERR and ERRCODE, completion included (rule R65). -/
theorem engineTurn_keeps_error {s t : State} (h : engineTurn s = .next t) :
    t.status.err = s.status.err ∧ t.status.errCode = s.status.errCode := by
  rcases engineTurn_next h with ⟨-, rfl⟩ | ⟨-, -, rfl⟩ | ⟨u, rest, -, -, -, rfl⟩ | ⟨u, rest, r, -, -, hp, rfl⟩
  · exact ⟨rfl, rfl⟩
  · exact ⟨rfl, rfl⟩
  · exact ⟨rfl, rfl⟩
  · obtain ⟨h', v', w', m', d', rfl⟩ := perform_done hp
    exact ⟨rfl, rfl⟩

/-- A host write that changes STATUS is a word at CMD, or a rejected write to SRC or LEN. -/
theorem hostWrite_status_change {s t : State} {addr size : Nat} {v : Word}
    (h : hostWrite s addr size v = .next t) (hne : t.status ≠ s.status) :
    (addr = s.params.regBase + 0x000 ∧ size = 4 ∧ writeCmd s v = .next t) ∨
      ∃ off, addr = s.params.regBase + off ∧ size = 4 ∧ off ∈ [0x008, 0x00C, 0x010, 0x014] ∧
        s.status.busy = true ∧ t = rejectAccess s .writeWhileBusy := by
  rcases hostWrite_next h with ⟨r, haddr, hsize, hr⟩ | rfl
  · rcases writeReg_next hr with ⟨rfl, hcmd⟩ | ⟨hoff, hb, ht⟩ | hkeep
    · exact .inl ⟨haddr, hsize, hcmd⟩
    · exact .inr ⟨_, haddr, hsize, hoff, hb, ht⟩
    · exact absurd hkeep hne
  · exact absurd rfl hne

/-- Settles O41: the engine's turn keeps both, and of the host's operations only a register write changes STATUS, which is
one at CMD (`writeCmd_next`) or a rejected one at SRC or LEN. -/
theorem errorLifecycle : Obligations.ErrorLifecycle := by
  refine ⟨fun _ _ => rfl, fun e s t h hchg => ?_⟩
  have hne : t.status ≠ s.status := by
    intro heq
    simp [heq] at hchg
  cases e with
  | reset => exact .inl rfl
  | engine =>
    obtain ⟨herr, hcode⟩ := engineTurn_keeps_error h
    exact absurd hchg (by simp [herr, hcode])
  | host op =>
    right
    obtain ⟨addr, size, v, rfl, hw⟩ := hostStep_status_change h hne
    rcases hostWrite_status_change hw hne with ⟨rfl, rfl, hcmd⟩ | ⟨off, rfl, rfl, hoff, hb, ht⟩
    · rcases writeCmd_next hcmd with ⟨hb, ht⟩ | ⟨hb, ⟨why, hd⟩, ht⟩ | ⟨hb, ⟨i, hd⟩, ht⟩
      · exact .inr (.inr (.inl ⟨v, rfl, hb, ht⟩))
      · exact .inr (.inl ⟨v, why, rfl, hd, hb, ht⟩)
      · exact .inl ⟨v, i, rfl, hd, hb, ht⟩
    · exact .inr (.inr (.inr ⟨off, v, rfl, hoff, hb, ht⟩))

end Sys2Proof.Machine

/-! # Reset (70_reset_and_hazards.md) -/

namespace Sys2Proof.Machine

/-! ## The reset event (rules R27, R120) -/

@[simp] theorem RegFile.unwritten_valid {w n j : Nat} (hj : j < n) : (RegFile.unwritten w n).valid[j] = false :=
  Vector.getElem_replicate hj

@[simp] theorem Status.reset_toWord : Status.reset.toWord = 0x00000000#32 := by decide

/-- Settles O8: the state asked for is `resetCore s`, all of whose register files are `RegFile.unwritten`. -/
theorem resetEventValues : Obligations.ResetEventValues := by
  refine ⟨rfl, fun s => ⟨resetCore s, rfl, Status.reset_toWord, rfl, rfl, rfl, rfl, ?hAndV, ?wAndM, ?d, rfl, rfl, rfl⟩⟩
  case hAndV => exact fun j => ⟨RegFile.unwritten_valid j.isLt, RegFile.unwritten_valid j.isLt⟩
  case wAndM => exact fun j => ⟨RegFile.unwritten_valid j.isLt, RegFile.unwritten_valid j.isLt⟩
  case d => exact fun j => RegFile.unwritten_valid j.isLt

end Sys2Proof.Machine

/-! # The command word, decoded and encoded (30_encoding.md) -/

namespace Sys2Proof

/-! ## A word that decodes is its command's encoding (rules R49, R51) -/

/-- The fields a word of the opcode map was read from are its command's. -/
theorem decodeOp_cmd {op : BitVec 4} {idx : BitVec 6} {i : Instr} (h : decodeOp op idx = .cmd i) :
    i.opcode = op ∧ i.idx = idx := by
  have hop {n : Nat} (hn : op.toNat = n) : BitVec.ofNat 4 n = op := by
    rw [← hn, BitVec.ofNat_toNat, BitVec.setWidth_eq]
  unfold decodeOp at h
  split at h
  -- SCHEDW and ROUND take every `IDX`
  case h_4 hn | h_7 hn =>
    cases h
    exact ⟨hop hn, rfl⟩
  -- PADTAIL
  case h_10 hn =>
    split at h <;> cases h
    exact ⟨hop hn, rfl⟩
  -- the reserved opcodes
  case h_14 => cases h
  -- the commands that take no operand
  all_goals
    rename_i hn
    unfold noOperand at h
    split at h <;> cases h
    rename_i hidx
    exact ⟨hop hn, hidx.symm⟩

/-- The decoder on a word whose reserved fields are 0. -/
theorem decode_of_fields {v : Word} (h0 : fieldRsv0 v = 0#4) (h1 : fieldRsv1 v = 0#18) :
    decode v = decodeOp (fieldOp v) (fieldIdx v) := by
  simp [decode, h0, h1]

/-- Only a word whose reserved fields are 0 spells a command. -/
theorem decode_cmd {v : Word} {i : Instr} (h : decode v = .cmd i) :
    fieldRsv0 v = 0#4 ∧ fieldRsv1 v = 0#18 ∧ decodeOp (fieldOp v) (fieldIdx v) = .cmd i := by
  unfold decode at h
  split at h
  case isTrue => cases h
  case isFalse h0 =>
    split at h
    case isTrue => cases h
    case isFalse h1 => exact ⟨not_not.mp h0, not_not.mp h1, h⟩

theorem encode_of_decode {v : Word} {i : Instr} (h : decode v = .cmd i) : encode i = v := by
  obtain ⟨h0, h1, hop⟩ := decode_cmd h
  obtain ⟨hopcode, hidx⟩ := decodeOp_cmd hop
  have e0 : v.toNat / 16 % 16 = 0 := by rw [← fieldRsv0_toNat, h0]; rfl
  have e1 : v.toNat / 2 ^ 14 = 0 := by rw [← fieldRsv1_toNat, h1]; rfl
  apply BitVec.eq_of_toNat_eq
  rw [encode_toNat, hopcode, hidx, fieldOp_toNat, fieldIdx_toNat]
  omega

/-- Settles O1: `decode_wellFormed` and `encode_of_decode` one way, `decode_encode` the other. -/
theorem decodeEncodeAgree : Obligations.DecodeEncodeAgree := by
  refine fun v i => ⟨fun h => ⟨decode_wellFormed h, encode_of_decode h⟩, ?_⟩
  rintro ⟨hw, rfl⟩
  exact decode_encode hw

/-! ## The rows of the opcode map (rule R51) -/

/-- The match column holds the opcode, and every other fixed bit is 0. -/
theorem pattern_eq (i : Instr) : i.pattern = i.opcode.setWidth 32 := by
  cases i <;> rfl

/-- The mask column leaves the operand's bits free. -/
theorem mask_eq (i : Instr) :
    i.mask = if i.opcode = 3#4 ∨ i.opcode = 6#4 then 0xFFFFC0FF#32
      else if i.opcode = 9#4 then 0xFFFFFEFF#32 else 0xFFFFFFFF#32 := by
  cases i <;> rfl

/-- A legal word has its command's row's fixed bits. -/
theorem encode_matches (i : Instr) : Laws.EncodeMatchesTable.Statement i := by
  cases i with
  | nop => exact Laws.EncodeMatchesTable.nop
  | init => exact Laws.EncodeMatchesTable.init
  | loadblk => exact Laws.EncodeMatchesTable.loadblk
  | schedw k => exact Laws.EncodeMatchesTable.schedw k
  | expand => exact Laws.EncodeMatchesTable.expand
  | vinit => exact Laws.EncodeMatchesTable.vinit
  | round k => exact Laws.EncodeMatchesTable.round k
  | compress => exact Laws.EncodeMatchesTable.compress
  | fold => exact Laws.EncodeMatchesTable.fold
  | padtail t => exact Laws.EncodeMatchesTable.padtail t
  | serialize => exact Laws.EncodeMatchesTable.serialize
  | block => exact Laws.EncodeMatchesTable.block
  | compute => exact Laws.EncodeMatchesTable.compute

/-- A masked word's fields are the masked fields (rule R49). -/
theorem fields_of_masked {v m p : Word} (h : v &&& m = p) :
    fieldOp v &&& fieldOp m = fieldOp p ∧ fieldIdx v &&& fieldIdx m = fieldIdx p ∧
      fieldRsv0 v &&& fieldRsv0 m = fieldRsv0 p ∧ fieldRsv1 v &&& fieldRsv1 m = fieldRsv1 p := by
  subst h
  simp only [fieldOp, fieldIdx, fieldRsv0, fieldRsv1, BitVec.extractLsb'_and, and_self]

/-- The fields of a row's two columns: the mask fixes every bit of `OP` and of the reserved fields. -/
theorem row_fields (i : Instr) :
    (fieldOp i.mask = .allOnes 4 ∧ fieldRsv0 i.mask = .allOnes 4 ∧ fieldRsv1 i.mask = .allOnes 18) ∧
      fieldOp i.pattern = i.opcode ∧ fieldRsv0 i.pattern = 0#4 ∧ fieldRsv1 i.pattern = 0#18 ∧
        fieldIdx i.pattern = 0#6 := by
  rw [mask_eq, pattern_eq]
  generalize i.opcode = op
  revert op
  decide

/-- The fields of a word that agrees with a row. -/
theorem fields_of_row {v : Word} {i : Instr} (h : v &&& i.mask = i.pattern) :
    fieldOp v = i.opcode ∧ fieldRsv0 v = 0#4 ∧ fieldRsv1 v = 0#18 ∧
      fieldIdx v &&& fieldIdx i.mask = 0#6 := by
  obtain ⟨hop, hidx, h0, h1⟩ := fields_of_masked h
  obtain ⟨⟨mop, m0, m1⟩, pop, p0, p1, pidx⟩ := row_fields i
  rw [mop, BitVec.and_allOnes, pop] at hop
  rw [m0, BitVec.and_allOnes, p0] at h0
  rw [m1, BitVec.and_allOnes, p1] at h1
  exact ⟨hop, h0, h1, hidx.trans pidx⟩

/-- A tail selector under the mask of PADTAIL is 0 or 1. -/
theorem tail_idx_le {idx : BitVec 6} (h : idx &&& 0x3E#6 = 0#6) : idx.toNat ≤ 1 := by
  revert idx
  decide

/-- The opcode map on the opcode of a row, with an operand that the row's mask admits. -/
theorem decodeOp_row {i : Instr} {idx : BitVec 6} (h : idx &&& fieldIdx i.mask = 0#6) :
    ∃ j, decodeOp i.opcode idx = .cmd j ∧ j.opcode = i.opcode := by
  have hall (hm : fieldIdx i.mask = BitVec.allOnes 6) : idx = 0#6 := by
    rwa [hm, BitVec.and_allOnes] at h
  cases i with
  | schedw k => exact ⟨.schedw idx, rfl, rfl⟩
  | round k => exact ⟨.round idx, rfl, rfl⟩
  | padtail t =>
    have hm : fieldIdx 0xFFFFFEFF#32 = 0x3E#6 := by decide
    rw [Instr.mask, hm] at h
    exact ⟨.padtail idx, if_pos (tail_idx_le h), rfl⟩
  | _ => exact ⟨_, if_pos (hall rfl), rfl⟩

theorem decode_row_iff (v : Word) (i : Instr) :
    (∃ j, decode v = .cmd j ∧ j.opcode = i.opcode) ↔ v &&& i.mask = i.pattern := by
  constructor
  · rintro ⟨j, hj, hop⟩
    obtain ⟨hw, rfl⟩ := (decodeEncodeAgree v j).mp hj
    rw [mask_eq, pattern_eq, ← hop, ← mask_eq, ← pattern_eq]
    exact (encode_matches j hw).1
  · intro h
    obtain ⟨hop, h0, h1, hidx⟩ := fields_of_row h
    rw [decode_of_fields h0 h1, hop]
    exact decodeOp_row hidx

/-! ## How many legal words there are (rule R52) -/

/-- The commands that take no operand. -/
def plainCommands : List Instr :=
  [.nop, .init, .loadblk, .expand, .vinit, .compress, .fold, .serialize, .block, .compute]

/-- The well-formed commands with an operand. -/
def indexedCommands : List Instr :=
  (List.finRange 64).map (fun k => .schedw (.ofFin k)) ++ (List.finRange 64).map (fun k => .round (.ofFin k)) ++
    (List.finRange 2).map (fun k => .padtail (.ofNat 6 k.val))

/-- Every well-formed command once. -/
def legalCommands : List Instr := plainCommands ++ indexedCommands

theorem mem_legalCommands (i : Instr) : i ∈ legalCommands ↔ i.WellFormed = true := by
  cases i with
  | padtail t =>
    revert t
    decide +kernel
  | schedw k | round k =>
    revert k
    decide +kernel
  | _ => decide +kernel

theorem legalCommands_nodup : legalCommands.Nodup := by decide +kernel

/-- The legal words: the encodings of the well-formed commands. -/
def legalWords : List Word := legalCommands.map encode

theorem mem_legalWords (v : Word) : v ∈ legalWords ↔ ∃ i, decode v = .cmd i := by
  simp only [legalWords, List.mem_map, mem_legalCommands, decodeEncodeAgree v]

/-- No two commands share a word, since each word decodes to its own. -/
theorem legalWords_nodup : legalWords.Nodup := by
  refine legalCommands_nodup.map_on fun i hi j hj h => ?_
  have hdi := decode_encode ((mem_legalCommands i).mp hi)
  have hdj := decode_encode ((mem_legalCommands j).mp hj)
  rw [h, hdj] at hdi
  cases hdi
  rfl

/-- Settles O2: `decode_row_iff`; a word decodes to one command, so to one row; and `legalWords` lists them all. -/
theorem legalWordsMatchOpcodeTable : Obligations.LegalWordsMatchOpcodeTable := by
  refine ⟨decode_row_iff, fun v i j hi hj => ?_, legalWords, legalWords_nodup, rfl, mem_legalWords⟩
  obtain ⟨a, ha, hai⟩ := (decode_row_iff v i).mpr hi
  obtain ⟨b, hb, hbj⟩ := (decode_row_iff v j).mpr hj
  rw [ha] at hb
  cases hb
  exact hai.symm.trans hbj

/-- Settles O4: each word's fields are those of its command. -/
theorem sampleWordsDecode : Obligations.SampleWordsDecode := by
  unfold Obligations.SampleWordsDecode
  decide

end Sys2Proof

/-! # Steps and the invariant (40_command_protocol.md, 10_state.md) -/

namespace Sys2Proof.Machine

/-! ## A recorded fault (rules R103, R110) -/

/-- No move writes the fault record: no field a move replaces is the record. -/
theorem Move.faultRecord {s t : State} (h : Move s t) : t.faultRecord = s.faultRecord := by
  cases h with
  | micro u rest r hb hq hp =>
    obtain ⟨h', v', w', m', d', rfl⟩ := perform_done hp
    rfl
  | _ => rfl

/-- A step that answers is a move of the state from which the script's head may have been taken. -/
theorem step_next {s t : State} (h : step s = .next t) : ∃ script, Move (s.setScript script) t := by
  obtain ⟨-, ⟨-, hturn⟩ | ⟨e, rest, -, hrun⟩⟩ := step_move h
  · exact ⟨s.script, engineTurn_move hturn⟩
  · exact ⟨rest, runEvent_move hrun⟩

/-- Settles O7: `step` looks at the record first, and no move writes it. -/
theorem faultRecordIsNeverCleared : Obligations.FaultRecordIsNeverCleared := by
  refine ⟨fun _ _ => rfl, fun _ _ => rfl, fun s t h => ?_⟩
  obtain ⟨script, hmove⟩ := step_next h
  exact hmove.faultRecord

/-! ## The scheduled move (rule R57) -/

theorem step_cons {s : State} {e : Event} {rest : List Event} (hf : s.faultRecord = none)
    (hs : s.script = e :: rest) : step s = runEvent e (s.setScript rest) := by
  simp only [step, hf, hs]

/-- Settles O6: with no fault recorded `step` is a case split on the script. -/
theorem stepMakesScheduledMove : Obligations.StepMakesScheduledMove := by
  refine fun s hf => ⟨fun hs => ?_, fun rest hs => step_cons hf hs, fun rest hs => step_cons hf hs,
    fun op rest hs => step_cons hf hs⟩
  simp only [step, hf, hs]

/-- A word of the table is decoded as the bus's word is. -/
theorem decode_of_decodeTableWord {w : Nat} {i : Instr} (h : decodeTableWord 32 w = some i) :
    decode (BitVec.ofNat 32 (w % 2 ^ 32)) = .cmd i := by
  unfold decodeTableWord at h
  split at h
  · split at h <;> cases h
    assumption
  · cases h

/-- A host write of a legal word to CMD presents its command. -/
theorem hostWrite_decoded (s : State) {v : Word} {i : Instr} (h : decode v = .cmd i) :
    hostWrite s (s.params.regBase + 0x000) 4 v = exec i s := by
  rw [hostWrite_cmd, writeCmd, h]

/-- Settles O5: both steps find a host write of the word at CMD at the head of the script. -/
theorem stepRunsDecodedCommand : Obligations.StepRunsDecodedCommand := by
  refine ⟨fun s v i rest hf hs hd => ?_, fun s w i hf hw => ?_⟩
  · exact (step_cons hf hs).trans (hostWrite_decoded (s.setScript rest) hd)
  · have hd := decode_of_decodeTableWord hw
    exact (step_cons (s := s.withFetchWord 32 w) hf rfl).trans (hostWrite_decoded s hd)

/-! ## The invariant at power-on -/

/-- Settles O57: nothing is queued and no cell is listed. -/
theorem invariantAtPowerOn : Obligations.InvariantAtPowerOn where
  params := by decide
  memWf := rfl
  memAdmitted := by simp [State.reset]
  srcWired := by decide
  status := by decide
  idle := fun _ => ⟨rfl, rfl⟩
  spanFits := by decide
  within := by simp [State.reset]

/-! ## What an accepted command queues lies inside its span (rules R25, R59, R63) -/

/-- The micro-steps that read no input memory. -/
def MicroStep.readsNoMemory : MicroStep → Bool
  | .uLoad _ | .uPad _ => false
  | .uInit | .uSched _ | .uVinit | .uRound _ | .uFold | .uSer => true

theorem MicroStep.within_of_readsNoMemory {u : MicroStep} (s : State) (h : u.readsNoMemory = true) :
    MicroStep.Within s u := by
  cases u with
  | uLoad addr | uPad t => cases h
  | uInit | uSched i | uVinit | uRound i | uFold | uSer => trivial

theorem schedSteps_readsNoMemory : ∀ u ∈ schedSteps, u.readsNoMemory = true := by
  simp [schedSteps, MicroStep.readsNoMemory]

theorem compressSteps_readsNoMemory : ∀ u ∈ compressSteps, u.readsNoMemory = true := by
  simp [compressSteps, roundSteps, MicroStep.readsNoMemory]

theorem blkSteps_readsNoMemory : ∀ u ∈ blkSteps, u.readsNoMemory = true := by
  intro u hu
  simp only [blkSteps, List.mem_append, List.mem_singleton] at hu
  rcases hu with (hu | hu) | rfl
  · exact schedSteps_readsNoMemory u hu
  · exact compressSteps_readsNoMemory u hu
  · rfl

/-- What COMPUTE queues: the loads of the full blocks, the padding steps, and steps that read no memory. -/
theorem mem_computeSteps {addr L : Nat} {u : MicroStep} (h : u ∈ computeSteps addr L) :
    (∃ b, b < L / 64 ∧ u = .uLoad (addr + 64 * b)) ∨ (∃ t, u = .uPad t) ∨ u.readsNoMemory = true := by
  simp only [computeSteps_eq, List.mem_append, List.mem_flatMap, List.mem_range, List.mem_cons,
    List.not_mem_nil, or_false] at h
  rcases h with ((((rfl | ⟨b, hb, rfl | hblk⟩) | rfl) | hblk) | htail) | rfl
  · exact .inr (.inr rfl)
  · exact .inl ⟨b, hb, rfl⟩
  · exact .inr (.inr (blkSteps_readsNoMemory u hblk))
  · exact .inr (.inl ⟨0, rfl⟩)
  · exact .inr (.inr (blkSteps_readsNoMemory u hblk))
  · split at htail
    · rcases List.mem_append.mp htail with hpad | hblk
      · exact .inr (.inl ⟨1, List.mem_singleton.mp hpad⟩)
      · exact .inr (.inr (blkSteps_readsNoMemory u hblk))
    · cases htail
  · exact .inr (.inr rfl)

/-- The span of an accepted command lies in the address space. -/
theorem spanOf_fits {i : Instr} {s : State} (hc : contractOf i s = none) :
    (spanOf i s).base + (spanOf i s).size ≤ 2 ^ s.params.addrW := by
  obtain ⟨hload, hmsg⟩ := contractOf_eq_none.mp hc
  cases i with
  | loadblk => exact hload rfl
  | padtail t => exact (hmsg (.inr ⟨t, rfl⟩)).2
  | compute => exact (hmsg (.inl rfl)).2
  | nop | init | schedw k | expand | vinit | round k | compress | fold | serialize | block => exact Nat.zero_le _

/-- Every micro-step of an accepted command reads inside the command's span. -/
theorem expansion_within {i : Instr} {s : State} (hc : contractOf i s = none) :
    ∀ u ∈ expansion i s, MicroStep.Within (startCommand s (expansion i s) (spanOf i s)) u := by
  intro u hu
  obtain ⟨-, hmsg⟩ := contractOf_eq_none.mp hc
  cases i with
  | nop => cases hu
  | loadblk =>
    cases List.mem_singleton.mp hu
    exact ⟨Nat.le_refl _, Nat.le_refl _⟩
  | padtail t =>
    cases List.mem_singleton.mp hu
    exact ⟨rfl, (hmsg (.inr ⟨t, rfl⟩)).1⟩
  | compute =>
    rcases mem_computeSteps hu with ⟨b, hb, rfl⟩ | ⟨t, rfl⟩ | hno
    · have hend : 64 * b + 64 ≤ lenOf s := by omega
      exact ⟨Nat.le_add_right _ _, by simp only [startCommand, spanOf]; omega⟩
    · exact ⟨rfl, (hmsg (.inl rfl)).1⟩
    · exact MicroStep.within_of_readsNoMemory _ hno
  | expand => exact MicroStep.within_of_readsNoMemory _ (schedSteps_readsNoMemory u hu)
  | compress => exact MicroStep.within_of_readsNoMemory _ (compressSteps_readsNoMemory u hu)
  | block => exact MicroStep.within_of_readsNoMemory _ (blkSteps_readsNoMemory u hu)
  | init | schedw k | vinit | round k | fold | serialize =>
    cases List.mem_singleton.mp hu
    trivial

/-! ## Every step keeps the invariant -/

/-- The memory's part of the invariant holds after a write of an admitted byte. -/
theorem Inv.write {s : State} (h : Inv s) {a : Nat} (x : Byte) (ha : admits s.params a = true) :
    Inv (s.setMem (Memory.set s.mem a x)) where
  params := h.params
  memWf := Memory.wf_set a x h.memWf
  memAdmitted := by
    intro c hc
    rcases Memory.mem_set hc with rfl | hc
    · exact ha
    · exact h.memAdmitted c hc
  srcWired := h.srcWired
  status := h.status
  idle := h.idle
  spanFits := h.spanFits
  within := h.within

/-- While idle no micro-step is queued, so SRC may take any wired value and LEN any value. -/
theorem Inv.operands {s : State} (h : Inv s) (hb : s.status.busy = false) {src len : DWord}
    (hsrc : src.toNat < 2 ^ s.params.addrW) : Inv ((s.setSrc src).setLen len) where
  params := h.params
  memWf := h.memWf
  memAdmitted := h.memAdmitted
  srcWired := hsrc
  status := h.status
  idle := h.idle
  spanFits := h.spanFits
  within := by
    intro u hu
    have hq : s.q = [] := (h.idle hb).1
    simp [hq] at hu

theorem Inv.reject {s : State} (h : Inv s) {code : ErrCode} : Inv (rejectAccess s code) where
  params := h.params
  memWf := h.memWf
  memAdmitted := h.memAdmitted
  srcWired := h.srcWired
  status := ⟨h.status.1, fun he => by cases he⟩
  idle := h.idle
  spanFits := h.spanFits
  within := h.within

theorem Inv.accept {s : State} (h : Inv s) {i : Instr} (hc : contractOf i s = none) :
    Inv (startCommand s (expansion i s) (spanOf i s)) where
  params := h.params
  memWf := h.memWf
  memAdmitted := h.memAdmitted
  srcWired := h.srcWired
  status := by simp [Status.Ok, startCommand, Status.accepted]
  idle := fun hb => by cases hb
  spanFits := spanOf_fits hc
  within := expansion_within hc

/-- A micro-step changes the datapath, of which the invariant does not speak, and shortens the queue. -/
theorem Inv.micro {s r : State} {u : MicroStep} {rest : List MicroStep} (h : Inv s) (hb : s.status.busy = true)
    (hq : s.q = u :: rest) (hp : perform u s = .done r) : Inv (r.setQ rest) := by
  obtain ⟨h', v', w', m', d', rfl⟩ := perform_done hp
  exact {
    params := h.params
    memWf := h.memWf
    memAdmitted := h.memAdmitted
    srcWired := h.srcWired
    status := h.status
    idle := fun hidle => by rw [State.setQ_status, hb] at hidle; cases hidle
    spanFits := h.spanFits
    within := fun x hx => h.within x (hq ▸ List.mem_cons_of_mem u hx) }

theorem Inv.complete {s : State} (h : Inv s) (hq : s.q = []) : Inv (completeCommand s) where
  params := h.params
  memWf := h.memWf
  memAdmitted := h.memAdmitted
  srcWired := h.srcWired
  status := ⟨by simp [completeCommand, Status.completed], h.status.2⟩
  idle := fun _ => ⟨hq, rfl⟩
  spanFits := Nat.zero_le _
  within := by
    intro u hu
    simp [completeCommand, hq] at hu

theorem Inv.resetCore {s : State} (h : Inv s) : Inv (resetCore s) where
  params := h.params
  memWf := h.memWf
  memAdmitted := h.memAdmitted
  srcWired := Nat.two_pow_pos _
  status := by simp [Status.Ok, Machine.resetCore, State.reset, Status.reset]
  idle := fun _ => ⟨rfl, rfl⟩
  spanFits := Nat.zero_le _
  within := by simp [Machine.resetCore, State.reset]

/-- The invariant does not speak of the environment's own fields. -/
theorem Inv.environment {s : State} (h : Inv s) (script : List Event) (log : List Word) (draws : Nat) :
    Inv { s with script := script, readLog := log, draws := draws } :=
  ⟨h.params, h.memWf, h.memAdmitted, h.srcWired, h.status, h.idle, h.spanFits, h.within⟩

theorem Move.inv {s t : State} (hm : Move s t) (h : Inv s) : Inv t := by
  cases hm with
  | stay => exact h
  | reject code hne => exact h.reject
  | accept i hw hb hc => exact h.accept hc
  | setSrc x hb =>
    have hx : (wireSrc s.params x).toNat < 2 ^ s.params.addrW := by
      rw [wireSrc_toNat]
      exact Nat.mod_lt _ (Nat.two_pow_pos _)
    exact h.operands hb (len := s.len) hx
  | setLen x hb => exact h.operands hb h.srcWired
  | write a x ha hr => exact h.write x ha
  | read x => exact h.environment _ _ _
  | draw hb => exact h.environment _ _ _
  | poll x evs => exact h.environment _ _ _
  | micro u rest r hb hq hp => exact h.micro hb hq hp
  | complete hb hq => exact h.complete hq
  | reset => exact h.resetCore

/-- Settles O58: a step is a move with the script replaced, and every move keeps the invariant. -/
theorem stepKeepsInvariant : Obligations.StepKeepsInvariant := by
  intro s t hinv h
  obtain ⟨script, hmove⟩ := step_next h
  exact hmove.inv (hinv.environment script s.readLog s.draws)

end Sys2Proof.Machine

/-! # What each move may change (40_command_protocol.md section 4, 20_memory.md section 2) -/

namespace Sys2Proof.Machine

/-! ## When a micro-step has no step, and when it reads an unwritten element (rules R64, R104, R107) -/

theorem not_readable {s : State} {addr n : Nat} :
    ¬Readable s addr n ↔ ∃ j, j < n ∧ admits s.params (addr + j) = false := by
  simp [Readable]

/-- Only `uLOAD` and `uPAD(0)` read the input memory, and they have no step where a byte they read is not admitted. -/
theorem perform_eq_stuck {s : State} {u : MicroStep} :
    perform u s = .stuck ↔
      (∃ addr j, u = .uLoad addr ∧ j < 64 ∧ admits s.params (addr + j) = false) ∨
        (u = .uPad 0 ∧ ∃ j, j < lenOf s % 64 ∧ admits s.params (srcAddr s + 64 * (lenOf s / 64) + j) = false) := by
  cases u with
  | uInit => simp [perform, microInit]
  | uLoad addr =>
    have hstuck : perform (.uLoad addr) s = .stuck ↔ ¬Readable s addr 64 := by
      simp only [perform, microLoad, ite_eq_right_iff, reduceCtorEq, imp_false]
    rw [hstuck, not_readable]
    simp
  | uSched i =>
    simp only [perform, microSched]
    cases schedValue s i <;> simp
  | uVinit =>
    simp only [perform, microVinit]
    cases s.h.getAll <;> simp
  | uRound i =>
    simp only [perform, microRound]
    cases s.v.getAll <;> cases s.w.get i <;> simp
  | uFold =>
    simp only [perform, microFold]
    cases s.h.getAll <;> cases s.v.getAll <;> simp
  | uPad t =>
    by_cases ht : t = 0
    · have hstuck : perform (.uPad t) s = .stuck ↔ ¬Readable s (srcAddr s + 64 * (lenOf s / 64)) (lenOf s % 64) := by
        simp only [perform, microPad, ht, if_true, microPad0, ite_eq_right_iff, reduceCtorEq, imp_false]
      rw [hstuck, not_readable]
      simp [ht]
    · simp [perform, microPad, microPad1, ht]
  | uSer =>
    simp only [perform, microSer]
    cases s.h.getAll <;> simp

theorem RegFile.getAll_eq_none_iff {w n : Nat} {f : RegFile w n} :
    f.getAll = none ↔ ∃ j : Fin n, f.valid[j] = false := by
  rw [RegFile.getAll_eq_none, not_forall]
  simp

/-- Below 16 `uSCHED(i)` reads the four bytes from `4*i` on. -/
theorem schedValue_eq_none_of_lt {s : State} {i : Fin 64} (h : i.val < 16) :
    schedValue s i = none ↔
      ∃ j : Fin 64, 4 * i.val ≤ j.val ∧ j.val < 4 * i.val + 4 ∧ s.m.valid[j] = false := by
  rw [schedValue, dif_pos h, RegFile.load32_eq_none]
  constructor
  · rintro (hv | hv | hv | hv)
    · exact ⟨⟨4 * i.val, by omega⟩, by simp, by simp, hv⟩
    · exact ⟨⟨4 * i.val + 1, by omega⟩, by simp, by simp, hv⟩
    · exact ⟨⟨4 * i.val + 2, by omega⟩, by simp, by simp, hv⟩
    · exact ⟨⟨4 * i.val + 3, by omega⟩, by simp, by simp, hv⟩
  · rintro ⟨⟨j, hj⟩, hlo, hhi, hv⟩
    simp only [Fin.getElem_fin] at hlo hhi hv
    have hcases : j = 4 * i.val ∨ j = 4 * i.val + 1 ∨ j = 4 * i.val + 2 ∨ j = 4 * i.val + 3 := by omega
    rcases hcases with rfl | rfl | rfl | rfl
    · exact .inl hv
    · exact .inr (.inl hv)
    · exact .inr (.inr (.inl hv))
    · exact .inr (.inr (.inr hv))

/-- From 16 on `uSCHED(i)` reads the four words of the recurrence. -/
theorem schedValue_eq_none_of_ge {s : State} {i : Fin 64} (h : 16 ≤ i.val) :
    schedValue s i = none ↔
      ∃ j : Fin 64, (j.val + 16 = i.val ∨ j.val + 15 = i.val ∨ j.val + 7 = i.val ∨ j.val + 2 = i.val) ∧
        s.w.valid[j] = false := by
  rw [schedValue_of_ge s (Nat.not_lt.mpr h), ite_eq_right_iff]
  simp only [reduceCtorEq, imp_false, not_and_or, Bool.not_eq_true]
  constructor
  · rintro (hv | hv | hv | hv)
    · exact ⟨⟨i.val - 16, by omega⟩, by simp; omega, hv⟩
    · exact ⟨⟨i.val - 15, by omega⟩, by simp; omega, hv⟩
    · exact ⟨⟨i.val - 7, by omega⟩, by simp; omega, hv⟩
    · exact ⟨⟨i.val - 2, by omega⟩, by simp; omega, hv⟩
  · rintro ⟨⟨j, hj⟩, hij, hv⟩
    simp only [Fin.getElem_fin] at hij hv
    have hcases : j = i.val - 16 ∨ j = i.val - 15 ∨ j = i.val - 7 ∨ j = i.val - 2 := by omega
    rcases hcases with rfl | rfl | rfl | rfl
    · exact .inl hv
    · exact .inr (.inl hv)
    · exact .inr (.inr (.inl hv))
    · exact .inr (.inr (.inr hv))

theorem perform_eq_uninit {s : State} {u : MicroStep} :
    perform u s = .uninit ↔
      (∃ i : Fin 64, u = .uSched i ∧ i.val < 16 ∧
        ∃ j : Fin 64, 4 * i.val ≤ j.val ∧ j.val < 4 * i.val + 4 ∧ s.m.valid[j] = false) ∨
        (∃ i : Fin 64, u = .uSched i ∧ 16 ≤ i.val ∧
          ∃ j : Fin 64, (j.val + 16 = i.val ∨ j.val + 15 = i.val ∨ j.val + 7 = i.val ∨ j.val + 2 = i.val) ∧
            s.w.valid[j] = false) ∨
        ((u = .uVinit ∨ u = .uFold ∨ u = .uSer) ∧ ∃ j : Fin 8, s.h.valid[j] = false) ∨
        ((u = .uFold ∨ ∃ i, u = .uRound i) ∧ ∃ j : Fin 8, s.v.valid[j] = false) ∨
        ∃ i : Fin 64, u = .uRound i ∧ s.w.valid[i] = false := by
  cases u with
  | uInit => simp [perform, microInit]
  | uLoad addr =>
    simp only [perform, microLoad]
    split <;> simp
  | uPad t =>
    simp only [perform, microPad, microPad0, microPad1]
    split_ifs <;> simp
  | uSched i =>
    have hnone : perform (.uSched i) s = .uninit ↔ schedValue s i = none := by
      simp only [perform, microSched]
      cases schedValue s i <;> simp
    rcases Nat.lt_or_ge i.val 16 with hi | hi
    · rw [hnone, schedValue_eq_none_of_lt hi]
      simp [hi]
    · rw [hnone, schedValue_eq_none_of_ge hi]
      simp [hi]
  | uVinit =>
    have hnone : perform .uVinit s = .uninit ↔ s.h.getAll = none := by
      simp only [perform, microVinit]
      cases s.h.getAll <;> simp
    rw [hnone, RegFile.getAll_eq_none_iff]
    simp
  | uRound i =>
    have hnone : perform (.uRound i) s = .uninit ↔ s.v.getAll = none ∨ s.w.get i = none := by
      simp only [perform, microRound]
      cases s.v.getAll <;> cases s.w.get i <;> simp
    rw [hnone, RegFile.getAll_eq_none_iff, RegFile.get_eq_none]
    simp
  | uFold =>
    have hnone : perform .uFold s = .uninit ↔ s.h.getAll = none ∨ s.v.getAll = none := by
      simp only [perform, microFold]
      cases s.h.getAll <;> cases s.v.getAll <;> simp
    rw [hnone, RegFile.getAll_eq_none_iff, RegFile.getAll_eq_none_iff]
    simp
  | uSer =>
    have hnone : perform .uSer s = .uninit ↔ s.h.getAll = none := by
      simp only [perform, microSer]
      cases s.h.getAll <;> simp
    rw [hnone, RegFile.getAll_eq_none_iff]
    simp

/-- Settles O50: the engine's turn by its head's result, `perform_eq_stuck` and `perform_eq_uninit`. -/
theorem engineMicroStep : Obligations.EngineMicroStep :=
  ⟨fun _ _ _ hb hq => ⟨fun _ => engineTurn_done hb hq, engineTurn_uninit hb hq, engineTurn_stuck hb hq⟩,
    fun _ _ => perform_eq_stuck, fun _ _ => perform_eq_uninit⟩

/-! ## What a micro-step writes (rule R63) -/

/-- The one register file a micro-step writes: all of it, or of `W` the step's own word. -/
inductive MicroWrite (s : State) : MicroStep → State → Prop where
  | hFile {u : MicroStep} (hu : u = .uInit ∨ u = .uFold) (xs : Vector Word 8) :
      MicroWrite s u (s.setH (.ofAll xs))
  | vFile {u : MicroStep} (hu : u = .uVinit ∨ ∃ i, u = .uRound i) (xs : Vector Word 8) :
      MicroWrite s u (s.setV (.ofAll xs))
  | wWord (i : Fin 64) (x : Word) : MicroWrite s (.uSched i) (s.setW (s.w.set i x))
  | mFile {u : MicroStep} (hu : (∃ addr, u = .uLoad addr) ∨ ∃ k, u = .uPad k) (xs : Vector Byte 64) :
      MicroWrite s u (s.setM (.ofAll xs))
  | dFile (xs : Vector Byte 32) : MicroWrite s .uSer (s.setD (.ofAll xs))

theorem perform_writes {u : MicroStep} {s t : State} (h : perform u s = .done t) : MicroWrite s u t := by
  cases u with
  | uInit => cases h; exact .hFile (.inl rfl) _
  | uLoad addr =>
    simp only [perform, microLoad] at h
    split at h <;> cases h
    exact .mFile (.inl ⟨addr, rfl⟩) _
  | uSched i =>
    simp only [perform, microSched] at h
    split at h <;> cases h
    exact .wWord i _
  | uVinit =>
    simp only [perform, microVinit] at h
    split at h <;> cases h
    exact .vFile (.inl rfl) _
  | uRound i =>
    simp only [perform, microRound] at h
    split at h <;> cases h
    exact .vFile (.inr ⟨i, rfl⟩) _
  | uFold =>
    simp only [perform, microFold] at h
    split at h <;> cases h
    exact .hFile (.inr rfl) _
  | uPad k =>
    simp only [perform, microPad, microPad0, microPad1] at h
    split_ifs at h <;> cases h <;> exact .mFile (.inr ⟨k, rfl⟩) _
  | uSer =>
    simp only [perform, microSer, serializeInto_eq] at h
    split at h <;> cases h
    exact .dFile _

/-- An engine's turn that answers keeps the datapath, or writes what the head of the queue writes. -/
theorem engineTurn_datapath {s t : State} (h : engineTurn s = .next t) :
    (t.h = s.h ∧ t.v = s.v ∧ t.w = s.w ∧ t.m = s.m ∧ t.d = s.d) ∨
      ∃ u rest r, s.q = u :: rest ∧ MicroWrite s u r ∧ t = r.setQ rest := by
  rcases engineTurn_next h with ⟨-, rfl⟩ | ⟨-, -, rfl⟩ | ⟨u, rest, -, -, -, rfl⟩ | ⟨u, rest, r, -, hq, hp, rfl⟩
  · exact .inl ⟨rfl, rfl, rfl, rfl, rfl⟩
  · exact .inl ⟨rfl, rfl, rfl, rfl, rfl⟩
  · exact .inl ⟨rfl, rfl, rfl, rfl, rfl⟩
  · exact .inr ⟨u, rest, r, hq, perform_writes hp, rfl⟩

/-- The engine's turn writes the datapath, STATUS, `Q` and SPAN alone. -/
theorem engineTurn_frame {s t : State} (h : engineTurn s = .next t) :
    t = { s with
      h := t.h, v := t.v, w := t.w, m := t.m, d := t.d
      status := { t.status with err := s.status.err, errCode := s.status.errCode }
      q := t.q, span := t.span } := by
  rcases engineTurn_next h with ⟨-, rfl⟩ | ⟨-, -, rfl⟩ | ⟨u, rest, -, -, -, rfl⟩ | ⟨u, rest, r, -, -, hp, rfl⟩
  · rfl
  · rfl
  · rfl
  · obtain ⟨h', v', w', m', d', rfl⟩ := perform_done hp
    rfl

section
variable {s t : State} {u : MicroStep}

theorem MicroWrite.of_h_ne (hw : MicroWrite s u t) (hne : t.h ≠ s.h) : u = .uInit ∨ u = .uFold := by
  cases hw with
  | hFile hu xs => exact hu
  | vFile | wWord | mFile | dFile => exact absurd rfl hne

theorem MicroWrite.of_v_ne (hw : MicroWrite s u t) (hne : t.v ≠ s.v) : u = .uVinit ∨ ∃ i, u = .uRound i := by
  cases hw with
  | vFile hu xs => exact hu
  | hFile | wWord | mFile | dFile => exact absurd rfl hne

theorem MicroWrite.of_w_ne (hw : MicroWrite s u t) (hne : t.w ≠ s.w) : ∃ i x, u = .uSched i ∧ t.w = s.w.set i x := by
  cases hw with
  | wWord i x => exact ⟨i, x, rfl, rfl⟩
  | hFile | vFile | mFile | dFile => exact absurd rfl hne

theorem MicroWrite.of_m_ne (hw : MicroWrite s u t) (hne : t.m ≠ s.m) :
    (∃ addr, u = .uLoad addr) ∨ ∃ k, u = .uPad k := by
  cases hw with
  | mFile hu xs => exact hu
  | hFile | vFile | wWord | dFile => exact absurd rfl hne

theorem MicroWrite.of_d_ne (hw : MicroWrite s u t) (hne : t.d ≠ s.d) : u = .uSer := by
  cases hw with
  | dFile xs => rfl
  | hFile | vFile | wWord | mFile => exact absurd rfl hne

end

/-- A write to one element leaves the others and their valid bits. -/
theorem RegFile.set_other {w n : Nat} (f : RegFile w n) {i j : Fin n} (x : BitVec w) (h : j ≠ i) :
    (f.set i x).bits[j] = f.bits[j] ∧ (f.set i x).valid[j] = f.valid[j] := by
  have hij : i.val ≠ j.val := fun e => h (Fin.ext e.symm)
  exact ⟨Vector.getElem_set_ne i.isLt j.isLt hij, Vector.getElem_set_ne i.isLt j.isLt hij⟩

/-- Settles O55: `engineTurn_datapath` says which file is written, `engineTurn_frame` that nothing else of the kind
is. -/
theorem engineStepFrame : Obligations.EngineStepFrame := by
  intro s t h
  have hdata := engineTurn_datapath h
  refine ⟨fun hne => ?_, fun hne => ?_, fun hne => ?_, fun hne => ?_, fun hne => ?_, ?others⟩
  case others =>
    rw [engineTurn_frame h]
    exact ⟨rfl, rfl, rfl, rfl, rfl, rfl, rfl, rfl, rfl, rfl⟩
  · obtain ⟨u, rest, r, hq, hw, rfl⟩ := hdata.resolve_left fun ⟨hh, _⟩ => hne hh
    rcases hw.of_h_ne hne with rfl | rfl
    · exact ⟨rest, .inl hq⟩
    · exact ⟨rest, .inr hq⟩
  · obtain ⟨u, rest, r, hq, hw, rfl⟩ := hdata.resolve_left fun ⟨_, hv, _⟩ => hne hv
    rcases hw.of_v_ne hne with rfl | ⟨i, rfl⟩
    · exact ⟨rest, 0, .inl hq⟩
    · exact ⟨rest, i, .inr hq⟩
  · obtain ⟨u, rest, r, hq, hw, rfl⟩ := hdata.resolve_left fun ⟨_, _, hw, _⟩ => hne hw
    obtain ⟨i, x, rfl, hset⟩ := hw.of_w_ne hne
    rw [State.setQ_w, hset]
    exact ⟨rest, i, hq, fun j => s.w.set_other x⟩
  · obtain ⟨u, rest, r, hq, hw, rfl⟩ := hdata.resolve_left fun ⟨_, _, _, hm, _⟩ => hne hm
    rcases hw.of_m_ne hne with ⟨addr, rfl⟩ | ⟨k, rfl⟩
    · exact ⟨rest, addr, 0, .inl hq⟩
    · exact ⟨rest, 0, k, .inr hq⟩
  · obtain ⟨u, rest, r, hq, hw, rfl⟩ := hdata.resolve_left fun ⟨_, _, _, _, hd⟩ => hne hd
    obtain rfl := hw.of_d_ne hne
    exact ⟨rest, hq⟩

/-! ## What a host operation leaves alone -/

theorem writeReg_keeps_datapath {s t : State} {r : RegName} {v : Word} (h : writeReg s r v = .next t) :
    t.h = s.h ∧ t.v = s.v ∧ t.w = s.w ∧ t.m = s.m ∧ t.d = s.d := by
  cases r with
  | cmd =>
    simp only [writeReg, writeCmd] at h
    split at h
    · rcases exec_next h with ⟨code, rfl⟩ | ⟨q, sp, rfl⟩ <;> exact ⟨rfl, rfl, rfl, rfl, rfl⟩
    · obtain ⟨code, rfl⟩ := issueIllegal_next h
      exact ⟨rfl, rfl, rfl, rfl, rfl⟩
  | srcLo | srcHi | lenLo | lenHi =>
    rcases writeOperand_cases h with ⟨-, rfl⟩ | ⟨-, rfl⟩ <;> exact ⟨rfl, rfl, rfl, rfl, rfl⟩
  | status | hWord j | vWord j | digestWord k | mWord k | wWord j =>
    cases h
    exact ⟨rfl, rfl, rfl, rfl, rfl⟩

theorem hostStep_keeps_datapath {s t : State} {op : HostOp} (h : hostStep op s = .next t) :
    t.h = s.h ∧ t.v = s.v ∧ t.w = s.w ∧ t.m = s.m ∧ t.d = s.d := by
  cases op with
  | wr addr size v =>
    rcases hostWrite_next h with ⟨r, -, -, hr⟩ | rfl
    · exact writeReg_keeps_datapath hr
    · exact ⟨rfl, rfl, rfl, rfl, rfl⟩
  | rd addr size => rcases hostRead_next h with rfl | ⟨x, rfl⟩ <;> exact ⟨rfl, rfl, rfl, rfl, rfl⟩
  | memw addr v => obtain ⟨-, ⟨-, rfl⟩ | ⟨-, rfl⟩⟩ := hostMemWrite_next h <;> exact ⟨rfl, rfl, rfl, rfl, rfl⟩
  | wait =>
    simp only [hostStep, hostWait] at h
    split at h <;> cases h <;> exact ⟨rfl, rfl, rfl, rfl, rfl⟩

/-- The bytes inside SPAN stay while busy: a register access writes no memory, and a memory write there is a race. -/
theorem hostStep_busy_keeps_span {s t : State} {op : HostOp} (hb : s.status.busy = true)
    (h : hostStep op s = .next t) {a : Nat} (ha : s.span.has a = true) : Memory.get t.mem a = Memory.get s.mem a := by
  cases op with
  | wr addr size v => rcases hostWrite_busy_next hb h with ⟨code, rfl⟩ | rfl <;> rfl
  | rd addr size => rcases hostRead_next h with rfl | ⟨x, rfl⟩ <;> rfl
  | memw addr v =>
    obtain ⟨hrace, ⟨-, rfl⟩ | ⟨-, rfl⟩⟩ := hostMemWrite_next h
    · have hne : a ≠ addr := fun e => hrace ⟨hb, e ▸ ha⟩
      exact Memory.get_set_other v hne
    · rfl
  | wait =>
    simp only [hostStep, hostWait] at h
    split at h <;> cases h <;> rfl

/-- While idle a host operation that is no write at CMD, SRC or LEN changes the memory and the environment's fields
alone. -/
theorem hostStep_idle_frame {s t : State} {op : HostOp} (h : hostStep op s = .next t)
    (hop : ∀ (off : Nat) (v : Word), off ∈ [0x000, 0x008, 0x00C, 0x010, 0x014] →
      op ≠ .wr (s.params.regBase + off) 4 v) :
    t = { s with mem := t.mem, script := t.script, readLog := t.readLog, draws := t.draws } := by
  cases op with
  | wr addr size v =>
    rcases hostWrite_next h with ⟨r, rfl, rfl, -⟩ | rfl
    · obtain ⟨-, h4, hlt⟩ := regAt_offset r
      have hignored := hostWrite_ignored s v h4 hlt fun hmem => hop r.offset v hmem rfl
      cases hignored.symm.trans h
      rfl
    · rfl
  | rd addr size => rcases hostRead_next h with rfl | ⟨x, rfl⟩ <;> rfl
  | memw addr v => obtain ⟨-, ⟨-, rfl⟩ | ⟨-, rfl⟩⟩ := hostMemWrite_next h <;> rfl
  | wait =>
    simp only [hostStep, hostWait] at h
    split at h <;> cases h <;> rfl

/-- Settles O52: an idle engine's turn passes; host operations by `hostStep_idle_frame`, and while busy by
`hostStep_busy_frame` and `hostStep_busy_keeps_span`. -/
theorem idleCoreOnlyAnswersHost : Obligations.IdleCoreOnlyAnswersHost := by
  refine ⟨fun s t e hb h hreset hwrite => ?_, fun s t op h => ⟨hostStep_keeps_datapath h, fun hb => ⟨?_, ?_⟩⟩⟩
  · cases e with
    | reset => exact absurd rfl hreset
    | engine =>
      cases (engineTurn_idle hb).symm.trans h
      exact ⟨rfl, rfl, rfl, rfl, rfl, rfl, rfl, rfl, rfl, rfl⟩
    | host op =>
      rw [hostStep_idle_frame h fun off v hoff e => hwrite off v hoff (congrArg Event.host e)]
      exact ⟨rfl, rfl, rfl, rfl, rfl, rfl, rfl, rfl, rfl, rfl⟩
  · rw [hostStep_busy_frame hb h]
    exact ⟨hb, rfl, rfl, rfl, rfl, rfl⟩
  · exact fun a hlo hhi => hostStep_busy_keeps_span hb h (Span.has_iff.mpr ⟨hlo, hhi⟩)

/-! ## A stuck engine (rule R107) -/

/-- Settles O53: what makes the head stuck, `perform_eq_stuck`, lies in fields that no move but a reset writes while
busy. -/
theorem stuckUntilReset : Obligations.StuckUntilReset := by
  intro s u rest hb hq hread
  have hturn := engineTurn_stuck hb hq (perform_eq_stuck.mpr hread)
  refine ⟨hturn, fun e t h hreset => ?_⟩
  cases e with
  | reset => exact absurd rfl hreset
  | engine =>
    cases hturn.symm.trans h
    exact ⟨hb, rfl, hturn⟩
  | host op =>
    rw [hostStep_busy_frame hb h]
    exact ⟨hb, rfl, engineTurn_stuck hb hq (perform_eq_stuck.mpr hread)⟩

/-! ## Valid bits (rule R17) -/

/-- Every valid bit of `f` is set in `g`. -/
abbrev RegFile.ValidKept {w n : Nat} (f g : RegFile w n) : Prop :=
  ∀ j : Fin n, f.valid[j] = true → g.valid[j] = true

theorem RegFile.validKept_of_eq {w n : Nat} {f g : RegFile w n} (h : g = f) : f.ValidKept g := by
  subst h
  exact fun _ hv => hv

theorem RegFile.validKept_ofAll {w n : Nat} (f : RegFile w n) (xs : Vector (BitVec w) n) :
    f.ValidKept (.ofAll xs) := fun j _ => RegFile.ofAll_full xs j

theorem RegFile.validKept_set {w n : Nat} (f : RegFile w n) (i : Fin n) (x : BitVec w) :
    f.ValidKept (f.set i x) := by
  intro j hv
  simp only [RegFile.set_valid, Fin.getElem_fin, Vector.getElem_set]
  split
  · rfl
  · exact hv

/-- The valid bits of all five register files are kept. -/
abbrev ValidBitsKept (s t : State) : Prop :=
  s.h.ValidKept t.h ∧ s.v.ValidKept t.v ∧ s.w.ValidKept t.w ∧ s.m.ValidKept t.m ∧ s.d.ValidKept t.d

theorem validBitsKept_of_eq {s t : State}
    (h : t.h = s.h ∧ t.v = s.v ∧ t.w = s.w ∧ t.m = s.m ∧ t.d = s.d) : ValidBitsKept s t := by
  obtain ⟨hh, hv, hw, hm, hd⟩ := h
  exact ⟨RegFile.validKept_of_eq hh, RegFile.validKept_of_eq hv, RegFile.validKept_of_eq hw,
    RegFile.validKept_of_eq hm, RegFile.validKept_of_eq hd⟩

theorem MicroWrite.validBitsKept {s t : State} {u : MicroStep} (h : MicroWrite s u t) : ValidBitsKept s t := by
  cases h with
  | hFile hu xs => exact ⟨s.h.validKept_ofAll xs, fun _ => id, fun _ => id, fun _ => id, fun _ => id⟩
  | vFile hu xs => exact ⟨fun _ => id, s.v.validKept_ofAll xs, fun _ => id, fun _ => id, fun _ => id⟩
  | wWord i x => exact ⟨fun _ => id, fun _ => id, s.w.validKept_set i x, fun _ => id, fun _ => id⟩
  | mFile hu xs => exact ⟨fun _ => id, fun _ => id, fun _ => id, s.m.validKept_ofAll xs, fun _ => id⟩
  | dFile xs => exact ⟨fun _ => id, fun _ => id, fun _ => id, fun _ => id, s.d.validKept_ofAll xs⟩

/-- Settles O56: host operations keep the datapath, and a micro-step's write only sets valid bits. -/
theorem validBitsStaySet : Obligations.ValidBitsStaySet := by
  intro s t e h hreset
  cases e with
  | reset => exact absurd rfl hreset
  | host op => exact validBitsKept_of_eq (hostStep_keeps_datapath h)
  | engine =>
    rcases engineTurn_datapath h with hsame | ⟨u, rest, r, -, hwrite, rfl⟩
    · exact validBitsKept_of_eq hsame
    · exact hwrite.validBitsKept

/-! ## Host memory writes and SRC (rules R36, R22) -/

/-- Settles O49: no race, so the byte is written where it is admitted, and by the laws of memory nothing else is. -/
theorem memoryWriteThenRead : Obligations.MemoryWriteThenRead := by
  intro s addr v hfree
  have hrace : ¬(s.status.busy = true ∧ s.span.has addr = true) := by
    rintro ⟨hb, hin⟩
    have hspan := Span.has_iff.mp hin
    rcases hfree with hidle | hout
    · rw [hidle] at hb
      cases hb
    · omega
  refine ⟨fun hwf hadm => ?_, fun hadm => ?_⟩
  · refine ⟨Memory.set s.mem addr v, ?_, Memory.wf_set addr v hwf, Memory.get_set_same addr v hwf,
      fun a ha => Memory.get_set_other v ha⟩
    rw [hostMemWrite, if_neg hrace, if_pos hadm]
    rfl
  · simp [hostMemWrite, hrace, hadm]

/-- Of two powers of 2 one divides the other, so that reducing by both keeps the residue by either. -/
theorem mod_two_pow_mod_two_pow (y k m : Nat) : y % 2 ^ k % 2 ^ m ≡ y % 2 ^ m [MOD 2 ^ k] := by
  rcases Nat.le_total k m with h | h
  · have hlt : y % 2 ^ k < 2 ^ m := (Nat.mod_lt y (Nat.two_pow_pos k)).trans_le (Nat.pow_le_pow_right two_pos h)
    rw [Nat.mod_eq_of_lt hlt]
    exact (Nat.mod_modEq y _).trans ((Nat.mod_modEq y (2 ^ m)).symm.of_dvd (pow_dvd_pow 2 h))
  · rw [Nat.mod_mod_of_dvd y (pow_dvd_pow 2 h)]

/-- The high part of a number, too, keeps its residue when the number is reduced first. -/
theorem mod_two_pow_div_mul (y k m : Nat) : y % 2 ^ k / 2 ^ m * 2 ^ m ≡ y / 2 ^ m * 2 ^ m [MOD 2 ^ k] := by
  refine Nat.ModEq.add_right_cancel (mod_two_pow_mod_two_pow y k m) ?_
  rw [Nat.div_add_mod', Nat.div_add_mod']
  exact Nat.mod_modEq y _

/-- The address in SRC after its low half and then its high half are written. -/
theorem wireSrc_low_high (p : Config.Params) (x : DWord) (lo hi : Word) :
    wireSrc p (setHighHalf (wireSrc p (wireSrc p (setLowHalf x lo))) hi) =
      .ofNat 64 ((hi.toNat * 2 ^ 32 + lo.toNat) % 2 ^ p.addrW) := by
  rw [wireSrc, setHighHalf_toNat, wireSrc_toNat, wireSrc_toNat, Nat.mod_mod, setLowHalf_toNat]
  have hlow := mod_two_pow_mod_two_pow (x.toNat / 2 ^ 32 * 2 ^ 32 + lo.toNat) p.addrW 32
  rw [Nat.mul_add_mod_self_right, Nat.mod_eq_of_lt lo.isLt] at hlow
  exact congrArg _ (hlow.add_left _)

/-- The same where the high half is written first. -/
theorem wireSrc_high_low (p : Config.Params) (x : DWord) (lo hi : Word) :
    wireSrc p (setLowHalf (wireSrc p (wireSrc p (setHighHalf x hi))) lo) =
      .ofNat 64 ((hi.toNat * 2 ^ 32 + lo.toNat) % 2 ^ p.addrW) := by
  rw [wireSrc, setLowHalf_toNat, wireSrc_toNat, wireSrc_toNat, Nat.mod_mod, setHighHalf_toNat]
  have hhigh := mod_two_pow_div_mul (hi.toNat * 2 ^ 32 + x.toNat % 2 ^ 32) p.addrW 32
  have hdiv : (hi.toNat * 2 ^ 32 + x.toNat % 2 ^ 32) / 2 ^ 32 = hi.toNat := by omega
  rw [hdiv] at hhigh
  exact congrArg _ (hhigh.add_right _)

/-- The halves of an address, as the host writes them, make up the address. -/
theorem halves_toNat {a : Nat} (ha : a < 2 ^ 64) :
    (BitVec.ofNat 32 (a / 2 ^ 32)).toNat * 2 ^ 32 + (BitVec.ofNat 32 a).toNat = a := by
  simp only [BitVec.toNat_ofNat]
  omega

/-- An idle core after its SRC has been set to the address `a` (rule R22). -/
def State.pointedAt (s : State) (a : Nat) : State := s.setSrc (.ofNat 64 (a % 2 ^ s.params.addrW))

theorem srcAddr_pointedAt (s : State) {a : Nat} (ha : a < 2 ^ 64) :
    srcAddr (s.pointedAt a) = a % 2 ^ s.params.addrW := by
  have hlt : a % 2 ^ s.params.addrW < 2 ^ 64 := (Nat.mod_le _ _).trans_lt ha
  simp only [srcAddr, srcOf, State.pointedAt, State.setSrc_params, State.setSrc_src, wireSrc_toNat, BitVec.toNat_ofNat,
    Nat.mod_eq_of_lt hlt, Nat.mod_mod]

/-- A first write to SRC leaves the core idle, so that a second one finds it so. -/
theorem writeOperand_setSrc (s : State) (x : DWord) (stored : State) (hb : s.status.busy = false) :
    writeOperand (s.setSrc x) stored = .next stored := writeOperand_idle stored hb

/-- Settles O40: both orders leave the address modulo `2^ADDR_W`, by `wireSrc_low_high` and `wireSrc_high_low`. -/
theorem srcHalvesInAnyOrder : Obligations.SrcHalvesInAnyOrder := by
  intro s a hb ha
  refine ⟨_, _, s.pointedAt a, (hostWrite_srcLo s _).trans (writeOperand_idle _ hb), (hostWrite_srcHi _ _).trans ?_,
    (hostWrite_srcHi s _).trans (writeOperand_idle _ hb), (hostWrite_srcLo _ _).trans ?_, srcAddr_pointedAt s ha, rfl⟩
  · rw [writeOperand_setSrc s _ _ hb]
    simp only [srcOf, State.setSrc_src, State.setSrc_params, State.setSrc_setSrc, wireSrc_low_high, halves_toNat ha,
      State.pointedAt]
  · rw [writeOperand_setSrc s _ _ hb]
    simp only [srcOf, State.setSrc_src, State.setSrc_params, State.setSrc_setSrc, wireSrc_high_low, halves_toNat ha,
      State.pointedAt]

end Sys2Proof.Machine

/-! # Words, codec, STATUS and reset (00_scope.md, 41_endian_codec.md, 10_state.md) -/

namespace Sys2Proof.Machine

/-! ## Rotation and shift (rules R8, R9) -/

theorem rotr_getLsbD (v : Word) {n : Nat} (hn : n < 32) {k : Nat} (hk : k < 32) :
    (rotr v n).getLsbD k = v.getLsbD ((k + n) % 32) := by
  simp only [rotr, BitVec.getLsbD_or, BitVec.getLsbD_ushiftRight, BitVec.getLsbD_shiftLeft, hk, decide_true,
    Bool.true_and]
  by_cases h : k + n < 32
  · have hlow : k < 32 - n := by omega
    rw [Nat.mod_eq_of_lt h]
    simp [hlow, Nat.add_comm]
  · have hlow : ¬k < 32 - n := by omega
    have hmod : (k + n) % 32 = k - (32 - n) := by omega
    have hout : v.getLsbD (n + k) = false := BitVec.getLsbD_of_ge v _ (by omega)
    simp [hlow, hmod, hout]

/-- Settles O11: a bit comes from the right shift, or, past the top, from the left shift. -/
theorem rotateAndShiftBits : Obligations.RotateAndShiftBits := by
  refine ⟨fun v n _ hn => ⟨rfl, fun k hk => rotr_getLsbD v hn hk⟩, fun v n => ?_⟩
  rw [shr, BitVec.toNat_ushiftRight, Nat.shiftRight_eq_div_pow]

/-! ## Choice and majority (rules R10, R87, R88) -/

/-- The exclusive or of the three pairs is set where at least two of three bits are. -/
theorem majority_bit (a b c : Bool) :
    ((a && b) ^^ (a && c) ^^ (b && c)) = true ↔ 2 ≤ a.toNat + b.toNat + c.toNat := by
  revert a b c
  decide

/-- Settles O13: both functions act bit by bit, and on bits by their truth tables. -/
theorem choiceAndMajorityBits : Obligations.ChoiceAndMajorityBits := by
  refine ⟨fun e f g k hk => ?_, fun a b c k hk => ?_⟩
  · simp only [ch, BitVec.getLsbD_xor, BitVec.getLsbD_and, BitVec.getLsbD_not, hk, decide_true, Bool.true_and]
    cases e.getLsbD k <;> simp
  · simp only [maj, BitVec.getLsbD_xor, BitVec.getLsbD_and]
    exact majority_bit _ _ _

/-! ## Loads and stores (rules R68, R69) -/

/-- A stored word loads back: its four bytes stand in their places. -/
theorem loadBe32_storeBe32 {n : Nat} (buf : Vector Byte n) (o : Nat) (ho : o + 3 < n) (v : Word) :
    loadBe32 (storeBe32 buf o v) o ho = v := by
  have hbyte (k : Nat) (hk : k < 4) : (storeBe32 buf o v)[o + k] = wordByte v k := by
    rw [storeBe32_getElem, if_pos (by omega), Nat.add_sub_cancel_left]
  have hfirst : (storeBe32 buf o v)[o] = wordByte v 0 := hbyte 0 (by omega)
  rw [loadBe32, hfirst, hbyte 1 (by omega), hbyte 2 (by omega), hbyte 3 (by omega), wordByte_append]

theorem wordByte_loadBe32 {n : Nat} (buf : Vector Byte n) (o : Nat) (ho : o + 3 < n) (k : Nat) (hk : k < 4) :
    wordByte (loadBe32 buf o ho) k = buf[o + k] := by
  have h0 := buf[o].isLt
  have h1 := buf[o + 1].isLt
  have h2 := buf[o + 2].isLt
  have h3 := buf[o + 3].isLt
  apply BitVec.eq_of_toNat_eq
  rw [wordByte_eq, loadBe32_toNat, BitVec.toNat_ofNat]
  interval_cases k
  · simp only [Nat.add_zero]; omega
  · omega
  · omega
  · omega

/-- Settles O16: `loadBe32_storeBe32`, and each byte of the loaded word is the buffer's own. -/
theorem codecRoundTrip : Obligations.CodecRoundTrip := by
  refine fun n buf o ho => ⟨loadBe32_storeBe32 buf o ho, Vector.ext fun j hj => ?_⟩
  rw [storeBe32_getElem]
  split
  · rw [wordByte_loadBe32 buf o ho _ (by omega)]
    congr 1
    omega
  · rfl

/-! ## The bit length and the number of blocks (rules R74, R76) -/

/-- Settles O17: below `2^61` the product is below `2^64`, and the shift multiplies by 8. -/
theorem bitLengthIsExact : Obligations.BitLengthIsExact := by
  refine fun x hx => ⟨bitLength_toNat hx, BitVec.eq_of_toNat_eq ?_⟩
  rw [bitLength_toNat hx, BitVec.toNat_shiftLeft, Nat.shiftLeft_eq, Nat.mod_eq_of_lt (by omega)]

theorem blockCount_eq_div (L : Nat) : blockCount L = (L + 8) / 64 + 1 := by
  rw [blockCount_eq]
  split <;> omega

/-- Settles O18: the block list is counted by `blockCount`. -/
theorem blockCountFormula : Obligations.BlockCountFormula := fun msg L =>
  ⟨(blocks_length msg L).trans (blockCount_eq_div L), (blocks_length msg L).trans (blockCount_eq L)⟩

/-! ## STATUS (rules R21, R102) -/

/-- Appending a bit below a value, as a number. -/
theorem append_bit_toNat {w : Nat} (x : BitVec w) (b : Bool) :
    (x ++ BitVec.ofBool b).toNat = x.toNat * 2 + b.toNat := by
  rw [BitVec.toNat_append, ← Nat.shiftLeft_add_eq_or_of_lt (BitVec.ofBool b).isLt, Nat.shiftLeft_eq,
    BitVec.toNat_ofBool, Nat.pow_one]

/-- The word is the code with four bits appended, of which the highest is 0. -/
theorem Status.toWord_toNat (st : Status) :
    st.toWord.toNat =
      1 * st.busy.toNat + 2 * st.done.toNat + 4 * st.err.toNat + 16 * st.errCode.value.toNat := by
  have hcode : (0#24 ++ st.errCode.value).toNat = st.errCode.value.toNat := by
    rw [BitVec.toNat_append]
    simp
  have hzero : (0#1 : BitVec 1) = BitVec.ofBool false := rfl
  rw [Status.toWord, hzero]
  simp only [append_bit_toNat, hcode, Bool.toNat_false]
  omega

theorem mul_toNat_eq_ite (n : Nat) (b : Bool) : n * b.toNat = if b then n else 0 := by
  cases b <;> simp

/-- Settles O42: `Status.toWord_toNat`, with the codes' values. -/
theorem statusWordFields : Obligations.StatusWordFields := by
  intro st
  rw [Status.toWord_toNat]
  simp only [mul_toNat_eq_ite]
  cases st.errCode <;> rfl

/-! ## After a reset (rules R27, R122) -/

theorem RegFile.unwritten_get {w n : Nat} (j : Fin n) : (RegFile.unwritten w n).get j = none :=
  RegFile.get_eq_none.mpr (RegFile.unwritten_valid j.isLt)

theorem RegFile.unwritten_load32 {n : Nat} (o : Nat) (ho : o + 3 < n) :
    (RegFile.unwritten 8 n).load32 o ho = none :=
  RegFile.load32_eq_none.mpr (.inl (RegFile.unwritten_valid (by omega)))

/-- Settles O9: after a reset the core is idle and every register file is unwritten. -/
theorem resetForgetsDatapath : Obligations.ResetForgetsDatapath := by
  refine fun s r hr => ⟨?_, rfl⟩
  have hview : regView (resetCore s) r = none := by
    cases r with
    | cmd | status | srcLo | srcHi | lenLo | lenHi => cases hr
    | hWord j | vWord j | wWord j => exact RegFile.unwritten_get j
    | digestWord k | mWord k => exact RegFile.unwritten_load32 _ _
  have hidle : ¬(r.isDatapath = true ∧ (resetCore s).status.busy = true) := fun h => by cases h.2
  rw [readReg, if_neg hidle, hview]

/-- Settles O10: the fields of `State.reset`, whose register files are `RegFile.unwritten`. -/
theorem powerOnState : Obligations.PowerOnState := by
  refine ⟨Status.reset_toWord, rfl, rfl, rfl, rfl, rfl, ?hAndV, ?wAndM, ?d⟩
  case hAndV => exact fun j => ⟨RegFile.unwritten_valid j.isLt, RegFile.unwritten_valid j.isLt⟩
  case wAndM => exact fun j => ⟨RegFile.unwritten_valid j.isLt, RegFile.unwritten_valid j.isLt⟩
  case d => exact fun j => RegFile.unwritten_valid j.isLt

end Sys2Proof.Machine

/-! # The commands and the digest (42_blocks_and_padding.md to 45_engine.md) -/

namespace Sys2Proof.Machine

/-! ## LOADBLK (rule R77) -/

theorem performAll_load {s : State} {addr : Nat} (hr : Readable s addr 64) :
    performAll [.uLoad addr] s =
      .done (s.setM (.ofAll (Vector.ofFn fun j : Fin 64 => Memory.get s.mem (addr + j.val)))) := by
  have hblock : fullBlock (bytesFrom s addr) 0 = Vector.ofFn fun j : Fin 64 => Memory.get s.mem (addr + j.val) := by
    simp [fullBlock, bytesFrom]
  simp only [performAll, perform, microLoad, hblock]
  rw [if_pos hr]

/-- Settles O22: the contract holds and `uLOAD`'s bytes are admitted. -/
theorem loadblkRuns : Obligations.LoadblkRuns := fun _ hb hfit hr =>
  ⟨decode_encode (i := .loadblk) rfl,
    exec_runs rfl hb (contractOf_eq_none.mpr ⟨fun _ => hfit, by simp⟩) (performAll_load hr) rfl⟩

/-! ## EXPAND (rule R84) -/

/-- Settles O24: the words are those of `schedule`, which `schedule_getElem` gives one by one. -/
theorem expandRuns : Obligations.ExpandRuns := by
  intro s hb
  have hlen : 65 = (expansion .expand s).length + 1 := by simp [expansion, schedSteps]
  obtain ⟨t, hexec, hrun⟩ := exec_runs_ite (i := .expand) (P := s.m.Full) rfl hb rfl performAll_schedSteps
    performAll_schedSteps_uninit hlen
  refine ⟨decode_encode (i := .expand) rfl, t, hexec, fun hm => ?_, fun hm => hrun.trans (if_neg hm)⟩
  refine ⟨schedule s.m.bits, hrun.trans (if_pos hm), fun i hi => ?_, fun i hge hi => ?_⟩
  · rw [schedule_getElem, dif_pos hi]
  · rw [schedule_getElem, dif_neg (by omega), schedNext]

/-! ## ROUND (rules R89, R91) -/

theorem performAll_round {s : State} {i : Fin 64} (hv : s.v.Full) (hw : s.w.valid[i] = true) :
    performAll [.uRound i] s = .done (s.setV (.ofAll (roundFn s.v.bits (roundConstant i) s.w.bits[i]))) := by
  simp only [performAll, perform, microRound, RegFile.getAll_of_full hv, RegFile.get_of_valid hw]

theorem performAll_round_uninit {s : State} {i : Fin 64} (h : ¬(s.v.Full ∧ s.w.valid[i] = true)) :
    performAll [.uRound i] s = .uninit := by
  have hu : perform (.uRound i) s = .uninit := by
    rw [not_and_or, not_forall] at h
    simp only [Bool.not_eq_true] at h
    rcases h with ⟨j, hj⟩ | hw
    · exact perform_eq_uninit.mpr (.inr (.inr (.inr (.inl ⟨.inr ⟨i, rfl⟩, j, hj⟩))))
    · exact perform_eq_uninit.mpr (.inr (.inr (.inr (.inr ⟨i, rfl, hw⟩))))
  simp only [performAll, hu]

/-- Settles O26: the table read out, and `roundFn` on the old tuple. -/
theorem roundRuns : Obligations.RoundRuns := by
  refine ⟨by decide, fun s i hb => ?_⟩
  obtain ⟨t, hexec, hrun⟩ := exec_runs_ite (i := .round (.ofFin i)) (n := 2) (P := s.v.Full ∧ s.w.valid[i] = true)
    rfl hb rfl (fun ⟨hv, hw⟩ => performAll_round hv hw) performAll_round_uninit rfl
  refine ⟨encode_eq_ofNat (.round (.ofFin i)) ▸ decode_encode rfl, t, hexec, ?_⟩
  rintro a b c d e f g h _ _ hbits rfl rfl
  rw [hrun, hbits]
  rfl

end Sys2Proof.Machine

/-! # The message commands and host programs (42_blocks_and_padding.md, 45_engine.md, 30_encoding.md section 4) -/

namespace Sys2Proof.Machine

/-! ## How many engine steps a command takes (rule R67) -/

theorem exec_idle_next {i : Instr} {s t : State} (hw : i.WellFormed = true) (hb : s.status.busy = false)
    (h : exec i s = .next t) : t = startCommand s (expansion i s) (spanOf i s) := by
  rw [exec_eq, if_pos hw] at h
  rcases issue_next h with ⟨hbusy, -⟩ | ⟨-, -, ht⟩
  · rw [hb] at hbusy
    cases hbusy
  · exact ht

/-- Settles O36: the queue of an accepted command is its expansion. -/
theorem engineStepCounts : Obligations.EngineStepCounts := by
  intro s i t hw hb h
  obtain rfl := exec_idle_next hw hb h
  change (expansion i s).length + 1 = _
  cases i with
  | expand => simp [expansion, schedSteps]
  | compress => simp [expansion, compressSteps, roundSteps]
  | block => exact congrArg (· + 1) blkSteps_length
  | compute => exact (computeSteps_length _ _).trans (by rw [blockCount_eq_div])
  | nop | init | loadblk | schedw k | vinit | round k | fold | padtail k | serialize => rfl

/-! ## PADTAIL (rules R73, R78) -/

theorem performAll_pad0 {s : State} (hr : Readable s (srcAddr s + 64 * (lenOf s / 64)) (lenOf s % 64)) :
    performAll [.uPad 0] s = .done (s.setM (.ofAll (tailBlock0 (bytesFrom s (srcAddr s)) (lenOf s)))) := by
  simp only [performAll, perform, microPad, if_true, microPad0]
  rw [if_pos hr]

theorem performAll_pad1 (s : State) : performAll [.uPad 1] s = .done (s.setM (.ofAll (tailBlock1 (lenOf s)))) := rfl

/-- Tail block 0, by the position inside the block. -/
theorem tailBlock0_getElem (msg : Nat → Byte) {L : Nat} (hL : L < 2 ^ 61) (j : Nat) (hj : j < 64) :
    (tailBlock0 msg L)[j] =
      if L % 64 < 56 ∧ 56 ≤ j then BitVec.ofNat 8 (L * 8 / 2 ^ (8 * (63 - j)))
      else if j < L % 64 then msg (64 * (L / 64) + j) else if j = L % 64 then 0x80#8 else 0x00#8 := by
  have hstaging : (stagingBytes msg L)[j] =
      if j < L % 64 then msg (64 * (L / 64) + j) else if j = L % 64 then 0x80#8 else 0x00#8 := by
    simp only [stagingBytes, Vector.getElem_ofFn]
  rw [← hstaging]
  by_cases h56 : L % 64 < 56
  · simp only [tailBlock0, h56, if_true, true_and, storeBe64_bitLength_getElem _ hL]
  · simp only [tailBlock0, h56, if_false, false_and]

theorem tailBlock1_getElem {L : Nat} (hL : L < 2 ^ 61) (j : Nat) (hj : j < 64) :
    (tailBlock1 L)[j] = if 56 ≤ j then BitVec.ofNat 8 (L * 8 / 2 ^ (8 * (63 - j))) else 0x00#8 := by
  rw [tailBlock1, storeBe64_bitLength_getElem _ hL, Vector.getElem_replicate]

/-- Settles O29: `uPAD(0)` writes tail block 0 and `uPAD(1)` tail block 1. -/
theorem padtailRuns : Obligations.PadtailRuns := by
  intro s t ht hb hL hfit hr
  have hw : (Instr.padtail t).WellFormed = true := decide_eq_true ht
  have hc : contractOf (.padtail t) s = none := contractOf_eq_none.mpr ⟨nofun, fun _ => ⟨hL, hfit⟩⟩
  refine ⟨encode_eq_ofNat (.padtail t) ▸ decode_encode hw, ?_⟩
  have hcases : t = 0#6 ∨ t = 1#6 := by
    rcases Nat.le_one_iff_eq_zero_or_eq_one.mp ht with h | h
    · exact .inl (BitVec.eq_of_toNat_eq h)
    · exact .inr (BitVec.eq_of_toNat_eq h)
  rcases hcases with rfl | rfl
  · obtain ⟨u, hexec, hrun⟩ := exec_runs (n := 2) hw hb hc (performAll_pad0 (hr rfl)) rfl
    refine ⟨u, hexec, _, hrun, fun j hj => ?_⟩
    rw [tailBlock0_getElem _ hL, bytesFrom, ← Nat.add_assoc]
    simp
  · obtain ⟨u, hexec, hrun⟩ := exec_runs (n := 2) hw hb hc (performAll_pad1 s) rfl
    refine ⟨u, hexec, _, hrun, fun j hj => ?_⟩
    rw [tailBlock1_getElem hL]
    simp

/-! ## What a message's blocks depend on (rule R73) -/

section
variable {msg msg' : Nat → Byte} {L : Nat}

theorem fullBlock_congr {b b' : Nat} (h : ∀ j, j < 64 → msg (64 * b + j) = msg' (64 * b' + j)) :
    fullBlock msg b = fullBlock msg' b' := by
  refine Vector.ext fun j hj => ?_
  rw [fullBlock_getElem, fullBlock_getElem, h j hj]

theorem tailBlock0_congr (h : ∀ n, n < L → msg n = msg' n) : tailBlock0 msg L = tailBlock0 msg' L := by
  have hstaging : stagingBytes msg L = stagingBytes msg' L := by
    refine Vector.ext fun j hj => ?_
    simp only [stagingBytes_getElem]
    split
    · exact h _ ‹_›
    · rfl
  rw [tailBlock0, tailBlock0, hstaging]

/-- Every block of a message depends on the message's own bytes alone. -/
theorem blockAt_congr (h : ∀ n, n < L → msg n = msg' n) (b : Nat) : blockAt msg L b = blockAt msg' L b := by
  unfold blockAt
  split
  · exact fullBlock_congr fun j hj => h _ (by omega)
  · rw [tailBlock0_congr h]

theorem blocks_congr (h : ∀ n, n < L → msg n = msg' n) : blocks msg L = blocks msg' L := by
  rw [blocks, blocks, funext (blockAt_congr h)]

end

/-- The block sequence ends with its last block. -/
theorem blocks_eq_append (msg : Nat → Byte) (L : Nat) :
    blocks msg L = (List.range (blockCount L - 1)).map (blockAt msg L) ++ [blockAt msg L (blockCount L - 1)] := by
  obtain ⟨n, hn⟩ : ∃ n, blockCount L = n + 1 := ⟨_, blockCount_eq_div L⟩
  rw [blocks, hn, List.range_succ, List.map_append]
  rfl

/-- The digest's HashState is the last block folded into that of the blocks before it. -/
theorem hashState_eq_foldBlock (msg : Nat → Byte) (L : Nat) :
    hashState msg L = foldBlock (hashPrefix msg L (blockCount L - 1)) (blockAt msg L (blockCount L - 1)) := by
  rw [hashState, blocks_eq_append, List.foldl_append]
  rfl

/-! ## COMPUTE (rules R98, R99) -/

/-- COMPUTE from its acceptance to its end. -/
theorem compute_runs {s : State} (hb : s.status.busy = false) (hL : lenOf s < 2 ^ 61)
    (hfit : srcAddr s + lenOf s ≤ 2 ^ s.params.addrW) (hr : Readable s (srcAddr s) (lenOf s)) :
    ∃ t, exec .compute s = .next t ∧
      engineRun (131 * blockCount (lenOf s) + 3) t =
        .next (finished (afterMessage s (bytesFrom s (srcAddr s)) (lenOf s))) :=
  exec_runs rfl hb (contractOf_eq_none.mpr ⟨nofun, fun _ => ⟨hL, hfit⟩⟩) (performAll_computeSteps hr)
    (computeSteps_length _ _).symm

/-- Settles O32: the message's blocks are those of the memory's bytes, the last of them split off. -/
theorem computeRuns : Obligations.ComputeRuns := by
  rintro s msg N hb hL hfit hr hmsg rfl
  rw [← blockCount_eq_div]
  obtain ⟨t, hexec, hrun⟩ := compute_runs hb hL hfit hr
  refine ⟨decode_encode (i := .compute) rfl, t, hexec, fun before last hbefore hlast => ?_⟩
  have hbytes : blocks msg (lenOf s) = blocks (bytesFrom s (srcAddr s)) (lenOf s) := by
    refine blocks_congr fun n hn => ?_
    have hread := hmsg n hn
    rw [memRead, if_pos (hr n hn)] at hread
    exact (Option.some.inj hread).symm
  generalize hbf : bytesFrom s (srcAddr s) = bytes at hrun hbytes
  have hlen : ((List.range (blockCount (lenOf s) - 1)).map (blockAt bytes (lenOf s))).length =
      blockCount (lenOf s) - 1 := by simp
  simp only [← addStates.eq_1] at hbefore ⊢
  rw [hbytes, blocks_eq_append, List.take_left' hlen] at hbefore
  rw [hbytes, blocks_eq_append, List.drop_left' hlen] at hlast
  obtain rfl : before = hashPrefix bytes (lenOf s) (blockCount (lenOf s) - 1) := hbefore
  obtain rfl : _ = last := List.singleton_inj.mp hlast
  rw [hrun, afterMessage, digest, hashState_eq_foldBlock]
  rfl

/-- Settles O33: both runs end in the digest of their bytes, which are the same, after the steps their length gives. -/
theorem digestDependsOnMessageOnly : Obligations.DigestDependsOnMessageOnly := by
  intro s₁ s₂ hb₁ hb₂ hL hlen hfit₁ hfit₂ hr₁ hr₂ hbytes
  obtain ⟨t₁, hexec₁, hrun₁⟩ := compute_runs hb₁ hL hfit₁ hr₁
  obtain ⟨t₂, hexec₂, hrun₂⟩ := compute_runs hb₂ (hlen ▸ hL) hfit₂ hr₂
  rw [hlen] at hrun₂
  refine ⟨t₁, t₂, _, _, _, hexec₁, hexec₂, hrun₁, hrun₂, rfl, rfl, RegFile.ofAll_full _, ?_⟩
  change RegFile.ofAll (digest _ _) = RegFile.ofAll (digest _ _)
  have hblocks := blocks_congr (msg := bytesFrom s₁ (srcAddr s₁)) (msg' := bytesFrom s₂ (srcAddr s₂)) hbytes
  rw [digest, digest, hashState, hashState, hblocks]

/-! ## What the engine reads (rule R25) -/

/-- The surroundings of the datapath and its control: the memory, the moves to come and what the host has read. -/
def State.surround (s : State) (mem : Memory) (script : List Event) (log : List Word) : State :=
  { s with mem := mem, script := script, readLog := log }

/-- What a result becomes in other surroundings. -/
def MicroResult.surround (r : MicroResult) (mem : Memory) (script : List Event) (log : List Word) : MicroResult :=
  match r with
  | .done t => .done (t.surround mem script log)
  | .uninit => .uninit
  | .stuck => .stuck

/-- The addresses whose bytes a micro-step may look at. -/
def MicroStep.Reads (s : State) (u : MicroStep) (a : Nat) : Prop :=
  match u with
  | .uLoad addr => addr ≤ a ∧ a < addr + 64
  | .uPad _ => srcAddr s ≤ a ∧ a < srcAddr s + lenOf s
  | .uInit | .uSched _ | .uVinit | .uRound _ | .uFold | .uSer => False

/-- A micro-step does the same in other surroundings that hold the bytes it reads. -/
theorem perform_surround {u : MicroStep} {s : State} {mem : Memory} (script : List Event) (log : List Word)
    (h : ∀ a, u.Reads s a → Memory.get mem a = Memory.get s.mem a) :
    perform u (s.surround mem script log) = (perform u s).surround mem script log := by
  cases u with
  | uInit => rfl
  | uLoad addr =>
    have hblock : fullBlock (bytesFrom (s.surround mem script log) addr) 0 = fullBlock (bytesFrom s addr) 0 :=
      fullBlock_congr fun j hj => h _ ⟨by omega, by omega⟩
    have hread : Readable (s.surround mem script log) addr 64 = Readable s addr 64 := rfl
    simp only [perform, microLoad, hblock, hread]
    split <;> rfl
  | uSched i =>
    have hvalue : schedValue (s.surround mem script log) i = schedValue s i := rfl
    simp only [perform, microSched, hvalue]
    cases schedValue s i <;> rfl
  | uVinit =>
    have hh : (s.surround mem script log).h = s.h := rfl
    simp only [perform, microVinit, hh]
    cases s.h.getAll <;> rfl
  | uRound i =>
    have hv : (s.surround mem script log).v = s.v := rfl
    have hw : (s.surround mem script log).w = s.w := rfl
    simp only [perform, microRound, hv, hw]
    cases s.v.getAll <;> cases s.w.get i <;> rfl
  | uFold =>
    have hh : (s.surround mem script log).h = s.h := rfl
    have hv : (s.surround mem script log).v = s.v := rfl
    simp only [perform, microFold, hh, hv]
    cases s.h.getAll <;> cases s.v.getAll <;> rfl
  | uPad k =>
    have hblock : tailBlock0 (bytesFrom (s.surround mem script log) (srcAddr s)) (lenOf s) =
        tailBlock0 (bytesFrom s (srcAddr s)) (lenOf s) :=
      tailBlock0_congr fun n hn => h _ ⟨by omega, by omega⟩
    have hsrc : srcAddr (s.surround mem script log) = srcAddr s := rfl
    have hlen : lenOf (s.surround mem script log) = lenOf s := rfl
    have hread (addr n : Nat) : Readable (s.surround mem script log) addr n = Readable s addr n := rfl
    simp only [perform, microPad, microPad0, microPad1, hsrc, hlen, hread, hblock]
    split
    · split <;> rfl
    · rfl
  | uSer =>
    have hh : (s.surround mem script log).h = s.h := rfl
    simp only [perform, microSer, hh]
    cases s.h.getAll <;> rfl

/-- The engine's turn faults where the head of the queue reads an unwritten element, and nowhere else. -/
theorem engineTurn_fault {s : State} {f : Fault} (h : engineTurn s = .fault f) :
    f = .uninitRead ∧ s.status.busy = true ∧ ∃ u rest, s.q = u :: rest ∧ perform u s = .uninit := by
  cases hb : s.status.busy with
  | false => rw [engineTurn_idle hb] at h; cases h
  | true =>
    cases hq : s.q with
    | nil => rw [engineTurn_complete hb hq] at h; cases h
    | cons u rest =>
      cases hp : perform u s with
      | done r => rw [engineTurn_done hb hq hp] at h; cases h
      | stuck => rw [engineTurn_stuck hb hq hp] at h; cases h
      | uninit =>
        rw [engineTurn_uninit hb hq hp] at h
        cases h
        exact ⟨rfl, rfl, u, rest, rfl, hp⟩

section
variable {s : State} {mem : Memory} (script : List Event) (log : List Word)
  (h : ∀ u rest, s.q = u :: rest → ∀ a, u.Reads s a → Memory.get mem a = Memory.get s.mem a)
include h

/-- An engine's turn does the same in other surroundings that hold the bytes its head reads. -/
theorem engineTurn_surround {t : State} (ht : engineTurn s = .next t) :
    engineTurn (s.surround mem script log) = .next (t.surround mem script log) := by
  rcases engineTurn_next ht with ⟨hb, rfl⟩ | ⟨hb, hq, rfl⟩ | ⟨u, rest, hb, hq, hp, rfl⟩ | ⟨u, rest, r, hb, hq, hp, rfl⟩
  · exact engineTurn_idle hb
  · exact engineTurn_complete hb hq
  · exact engineTurn_stuck hb hq (by rw [perform_surround script log (h u rest hq), hp]; rfl)
  · have hp' : perform u (s.surround mem script log) = .done (r.surround mem script log) := by
      rw [perform_surround script log (h u rest hq), hp]
      rfl
    exact engineTurn_done (s := s.surround mem script log) hb hq hp'

theorem engineTurn_fault_surround {f : Fault} (ht : engineTurn s = .fault f) :
    engineTurn (s.surround mem script log) = .fault f := by
  obtain ⟨rfl, hb, u, rest, hq, hp⟩ := engineTurn_fault ht
  exact engineTurn_uninit hb hq (by rw [perform_surround script log (h u rest hq), hp]; rfl)

end

/-- A queued micro-step reads inside SPAN. -/
theorem MicroStep.Within.reads {s : State} {u : MicroStep} (h : MicroStep.Within s u) {a : Nat} (ha : u.Reads s a) :
    s.span.base ≤ a ∧ a < s.span.base + s.span.size := by
  cases u with
  | uLoad addr =>
    obtain ⟨hlo, hhi⟩ := h
    obtain ⟨hlo', hhi'⟩ := ha
    omega
  | uPad k =>
    rw [h.1]
    exact ha
  | uInit | uSched i | uVinit | uRound i | uFold | uSer => cases ha

/-- Settles O59: with the invariant the head of the queue reads inside SPAN, where the memories agree. -/
theorem engineReadsInsideSpan : Obligations.EngineReadsInsideSpan := by
  intro s mem' hinv hagree
  have hreads : ∀ u rest, s.q = u :: rest → ∀ a, u.Reads s a → Memory.get mem' a = Memory.get s.mem a := by
    intro u rest hq a ha
    have hwithin := hinv.within u (hq ▸ List.mem_cons_self)
    obtain ⟨hlo, hhi⟩ := hwithin.reads ha
    exact hagree a hlo hhi
  refine ⟨fun t ht => ?_, fun f hf => engineTurn_fault_surround s.script s.readLog hreads hf⟩
  have hframe := engineTurn_frame ht
  have hscript : t.script = s.script := by rw [hframe]
  have hlog : t.readLog = s.readLog := by rw [hframe]
  have ht' : t.surround mem' s.script s.readLog = { t with mem := mem' } := by
    rw [← hscript, ← hlog]
    rfl
  exact ht' ▸ engineTurn_surround s.script s.readLog hreads ht

/-! ## Runs of the whole machine -/

/-- Some number of steps of the machine lead from one state to another. -/
abbrev Reaches : State → State → Prop := Relation.ReflTransGen fun s t => step s = .next t

theorem run_of_reaches {s t : State} (h : Reaches s t) : ∃ k, Sys2Proof.core.run k s = .next t := by
  induction h using Relation.ReflTransGen.head_induction_on with
  | refl => exact ⟨0, rfl⟩
  | head hstep _ ih =>
    obtain ⟨k, hk⟩ := ih
    have hcore : Sys2Proof.core.step _ = .next _ := hstep
    exact ⟨k + 1, by simp only [Host.Core.run, hcore, hk]⟩

/-- The head of the script made. -/
theorem reaches_event {s t : State} {e : Event} {rest : List Event} (hf : s.faultRecord = none)
    (h : runEvent e (s.setScript rest) = .next t) : Reaches (s.setScript (e :: rest)) t :=
  .single ((step_cons (s := s.setScript (e :: rest)) hf rfl).trans h)

/-! ## The host's operations one after another (rules R55, R56) -/

theorem lowHalf_ofNat (a : Nat) : (lowHalf (BitVec.ofNat 64 a)).toNat = a % 2 ^ 32 := by
  rw [lowHalf_toNat, BitVec.toNat_ofNat]
  omega

theorem highHalf_ofNat {a : Nat} (ha : a < 2 ^ 64) : (highHalf (BitVec.ofNat 64 a)).toNat = a / 2 ^ 32 := by
  rw [highHalf_toNat, BitVec.toNat_ofNat, Nat.mod_eq_of_lt ha]

section
variable {s : State} (rest : List Event) (v : Word) (hb : s.status.busy = false)
include hb

theorem runEvent_srcLo : runEvent (wrEvent s.params .srcLo v) (s.setScript rest) =
    .next ((s.setSrc (wireSrc s.params (setLowHalf (srcOf s) v))).setScript rest) :=
  (hostWrite_srcLo (s.setScript rest) v).trans (writeOperand_idle _ hb)

theorem runEvent_srcHi : runEvent (wrEvent s.params .srcHi v) (s.setScript rest) =
    .next ((s.setSrc (wireSrc s.params (setHighHalf (srcOf s) v))).setScript rest) :=
  (hostWrite_srcHi (s.setScript rest) v).trans (writeOperand_idle _ hb)

theorem runEvent_lenLo : runEvent (wrEvent s.params .lenLo v) (s.setScript rest) =
    .next ((s.setLen (setLowHalf s.len v)).setScript rest) :=
  (hostWrite_lenLo (s.setScript rest) v).trans (writeOperand_idle _ hb)

theorem runEvent_lenHi : runEvent (wrEvent s.params .lenHi v) (s.setScript rest) =
    .next ((s.setLen (setHighHalf s.len v)).setScript rest) :=
  (hostWrite_lenHi (s.setScript rest) v).trans (writeOperand_idle _ hb)

end

section
variable {s : State} (rest : List Event) (hf : s.faultRecord = none) (hb : s.status.busy = false)
include hf hb

/-- `setsrc a` sets SRC to the address. -/
theorem reaches_setsrc {a : Nat} (ha : a < 2 ^ 64) :
    Reaches (s.setScript (setsrcEvents s.params a ++ rest)) ((s.pointedAt a).setScript rest) := by
  generalize hlo : lowHalf (BitVec.ofNat 64 a) = lo
  generalize hhi : highHalf (BitVec.ofNat 64 a) = hi
  have hsum : hi.toNat * 2 ^ 32 + lo.toNat = a := by
    rw [← hlo, ← hhi, lowHalf_ofNat, highHalf_ofNat ha, Nat.div_add_mod']
  have hset : (s.setSrc (wireSrc s.params (setLowHalf (srcOf s) lo))).setSrc
      (wireSrc s.params (setHighHalf (wireSrc s.params (wireSrc s.params (setLowHalf (srcOf s) lo))) hi)) =
      s.pointedAt a := by
    rw [State.setSrc_setSrc, wireSrc_low_high, hsum]
    rfl
  rw [setsrcEvents, hlo, hhi, ← hset]
  exact (reaches_event hf (runEvent_srcLo _ lo hb)).trans
    (reaches_event (s := s.setSrc _) hf (runEvent_srcHi rest hi hb))

/-- `setlen n` sets LEN. -/
theorem reaches_setlen {n : Nat} (hn : n < 2 ^ 64) :
    Reaches (s.setScript (setlenEvents s.params n ++ rest)) ((s.setLen (.ofNat 64 n)).setScript rest) := by
  have hset : setHighHalf (setLowHalf s.len (lowHalf (.ofNat 64 n))) (highHalf (.ofNat 64 n)) = .ofNat 64 n := by
    apply BitVec.eq_of_toNat_eq
    rw [setHighHalf_toNat, setLowHalf_toNat, lowHalf_ofNat, highHalf_ofNat hn, BitVec.toNat_ofNat]
    omega
  have hsecond := runEvent_lenHi (s := s.setLen (setLowHalf s.len (lowHalf (.ofNat 64 n)))) rest
    (highHalf (.ofNat 64 n)) hb
  rw [State.setLen_setLen, State.setLen_len, hset] at hsecond
  exact (reaches_event hf (runEvent_lenLo _ _ hb)).trans (reaches_event (s := s.setLen _) hf hsecond)

end

/-- Writing COMPUTE's word to CMD presents the command. -/
theorem reaches_compute {s t : State} {rest : List Event} (hf : s.faultRecord = none)
    (h : exec .compute (s.setScript rest) = .next t) :
    Reaches (s.setScript (cmdEvents s.params 0xC 0 ++ rest)) t := by
  have hd : decode (BitVec.ofNat 32 ((0 <<< 8) ||| 0xC)) = .cmd .compute := by decide
  exact reaches_event hf ((hostWrite_decoded (s.setScript rest) hd).trans h)

theorem engineRun_idle {s : State} (hb : s.status.busy = false) (k : Nat) : engineRun k s = .next s := by
  induction k with
  | zero => rfl
  | succ k ih => rw [engineRun, engineTurn_idle hb]; exact ih

section
variable {s : State} (rest : List Event) (log : List Word) (hf : s.faultRecord = none)
include hf

/-- A poll that finds the core idle ends `wait`. -/
theorem reaches_wait_idle (hb : s.status.busy = false) :
    Reaches ((s.setReadLog log).setScript (.host .wait :: rest))
      ((s.setReadLog (s.status.toWord :: log)).setScript rest) := by
  have hnot : ¬s.status.busy = true := by simp [hb]
  exact reaches_event (s := s.setReadLog log) hf (if_neg hnot)

/-- A poll that finds the core busy lets the engine take its turn, and `wait` goes on. -/
theorem reaches_wait_busy {t : State} (hb : s.status.busy = true) (hturn : engineTurn s = .next t) :
    Reaches ((s.setReadLog log).setScript (.host .wait :: rest))
      ((t.setReadLog (s.status.toWord :: log)).setScript (.host .wait :: rest)) := by
  have hpoll : runEvent (.host .wait) ((s.setReadLog log).setScript rest) =
      .next ((s.setReadLog (s.status.toWord :: log)).setScript (.engine :: .host .wait :: rest)) := if_pos hb
  have hsame : t.surround s.mem (.host .wait :: rest) (s.status.toWord :: log) =
      (t.setReadLog (s.status.toWord :: log)).setScript (.host .wait :: rest) := by
    rw [← (engineTurn_keeps_memory hturn).2]
    rfl
  have hturn' := engineTurn_surround (mem := s.mem) (.host .wait :: rest) (s.status.toWord :: log)
    (fun _ _ _ _ _ => rfl) hturn
  rw [hsame] at hturn'
  exact (reaches_event (s := s.setReadLog log) hf hpoll).trans (reaches_event (s := s.setReadLog _) hf hturn')

end

/-- `wait` polls STATUS, with a turn of the engine between two polls, until the engine's run has ended (log 13). -/
theorem reaches_wait {k : Nat} {s t : State} (rest : List Event) (log : List Word) (hf : s.faultRecord = none)
    (hrun : engineRun k s = .next t) (hidle : t.status.busy = false) :
    ∃ log', Reaches ((s.setReadLog log).setScript (.host .wait :: rest)) ((t.setReadLog log').setScript rest) := by
  induction k generalizing s log with
  | zero =>
    cases hrun
    exact ⟨_, reaches_wait_idle rest log hf hidle⟩
  | succ k ih =>
    cases hb : s.status.busy with
    | false =>
      cases (engineRun_idle hb (k + 1)).symm.trans hrun
      exact ⟨_, reaches_wait_idle rest log hf hb⟩
    | true =>
      rw [engineRun] at hrun
      cases hturn : engineTurn s with
      | next r =>
        rw [hturn] at hrun
        have hfr : r.faultRecord = none := (engineTurn_move hturn).faultRecord.trans hf
        obtain ⟨log', hreach⟩ := ih (s.status.toWord :: log) hfr hrun
        exact ⟨log', (reaches_wait_busy rest log hf hb hturn).trans hreach⟩
      | fault f => rw [hturn] at hrun; cases hrun
      | refused r => rw [hturn] at hrun; cases hrun

/-- The reads of the given digest words (rule R56). -/
def readEvents (p : Config.Params) (ks : List (Fin 8)) : List Event := ks.map fun k => rdEvent p (.digestWord k)

/-- Reads of digest words put the words of the HashState in the read log, the newest first. -/
theorem reaches_reads {s : State} {x : Vector Word 8} (hf : s.faultRecord = none) (hb : s.status.busy = false)
    (hd : s.d = .ofAll (serialBytes x)) (ks : List (Fin 8)) (log : List Word) :
    Reaches ((s.setReadLog log).setScript (readEvents s.params ks))
      ((s.setReadLog ((ks.map fun k => x[k]).reverse ++ log)).setScript []) := by
  induction ks generalizing log with
  | nil => exact .refl
  | cons k ks ih =>
    have hview : regView s (.digestWord k) = some x[k] := by
      rw [regView, hd, RegFile.load32_of_full (RegFile.ofAll_full _), RegFile.ofAll_bits, loadBe32_serialBytes]
      rfl
    have hread : runEvent (rdEvent s.params (.digestWord k)) ((s.setReadLog log).setScript (readEvents s.params ks)) =
        .next ((s.setReadLog (x[k] :: log)).setScript (readEvents s.params ks)) := by
      refine (hostRead_idle (s := (s.setReadLog log).setScript _) hb (.digestWord k) (valid := True) ?_).trans
        (if_pos trivial)
      exact hview
    have hlog : ((k :: ks).map fun k => x[k]).reverse ++ log = (ks.map fun k => x[k]).reverse ++ x[k] :: log := by
      simp
    rw [hlog]
    exact (reaches_event (s := s.setReadLog log) hf hread).trans (ih (x[k] :: log))

/-- The words of a HashState, newest first, are what the eight reads have put in front of the log. -/
theorem take_reads (x : Vector Word 8) (log : List Word) :
    (((List.finRange 8).map fun k => x[k]).reverse ++ log).take 8 = x.toList.reverse := by
  have hwords : (List.finRange 8).map (fun k => x[k]) = x.toList := by
    apply List.ext_getElem <;> simp
  rw [hwords, List.take_left' (by simp)]

/-! ## The host's program -/

/-- A core whose SRC and LEN have been set to a message. -/
def State.aimedAt (s : State) (a n : Nat) : State := (s.pointedAt a).setLen (.ofNat 64 n)

theorem srcAddr_aimedAt (s : State) {a : Nat} (n : Nat) (ha : a < 2 ^ s.params.addrW) (ha' : a < 2 ^ 64) :
    srcAddr (s.aimedAt a n) = a :=
  (srcAddr_pointedAt s ha').trans (Nat.mod_eq_of_lt ha)

theorem lenOf_aimedAt (s : State) (a : Nat) {n : Nat} (hn : n < 2 ^ 61) : lenOf (s.aimedAt a n) = n := by
  change (BitVec.ofNat 64 n).toNat = n
  rw [BitVec.toNat_ofNat, Nat.mod_eq_of_lt (by omega)]

/-- COMPUTE on an idle core, `wait` and the reads of the digest, the message at `SRC` being admitted. -/
theorem reaches_digest {s : State} (hf : s.faultRecord = none) (hb : s.status.busy = false) (hL : lenOf s < 2 ^ 61)
    (hfit : srcAddr s + lenOf s ≤ 2 ^ s.params.addrW) (hr : Readable s (srcAddr s) (lenOf s)) (ks : List (Fin 8)) :
    ∃ log, Reaches (s.setScript (cmdEvents s.params 0xC 0 ++ .host .wait :: readEvents s.params ks))
      (((finished (afterMessage s (bytesFrom s (srcAddr s)) (lenOf s))).setReadLog
        ((ks.map fun k => (hashState (bytesFrom s (srcAddr s)) (lenOf s))[k]).reverse ++ log)).setScript []) := by
  obtain ⟨t, hexec, hrun⟩ := compute_runs (s := s.setScript (.host .wait :: readEvents s.params ks)) hb hL hfit hr
  have ht := exec_idle_next (s := s.setScript (.host .wait :: readEvents s.params ks)) rfl hb hexec
  have hft : t.faultRecord = none := ht ▸ hf
  have hself : (t.setReadLog s.readLog).setScript (.host .wait :: readEvents s.params ks) = t := by
    rw [ht]
    rfl
  obtain ⟨log, hwait⟩ := reaches_wait (readEvents s.params ks) s.readLog hft hrun rfl
  rw [hself] at hwait
  refine ⟨log, (reaches_compute hf hexec).trans (hwait.trans ?_)⟩
  exact reaches_reads (s := finished (afterMessage s (bytesFrom s (srcAddr s)) (lenOf s))) hf rfl rfl ks log

/-- The STATUS word a completed command leaves: DONE alone. -/
theorem doneAlone_toWord :
    Status.toWord { busy := false, done := true, err := false, errCode := .none } = 0x00000002#32 := by decide

/-- The program of the statement, as the host's operations in order. -/
theorem withProgram_sha256 {s : State} (hs : s.script = []) (a n : Nat) :
    s.withProgram [.sha256 a n, .rddigest] =
      s.setScript (setsrcEvents s.params a ++ (setlenEvents s.params n ++
        (cmdEvents s.params 0xC 0 ++ .host .wait :: readEvents s.params (List.finRange 8)))) := by
  rw [State.withProgram, hs]
  simp [programEvents, Line.events, readEvents]

/-- Settles O60: `setsrc`, `setlen`, COMPUTE's run under `wait`, and the eight reads of its digest. -/
theorem hostOperationsHashMessage : Obligations.HostOperationsHashMessage := by
  intro s a n hf hb hs ha ha' hn hfit hr
  have hsrc := srcAddr_aimedAt s n ha ha'
  have hlen := lenOf_aimedAt s a hn
  obtain ⟨log, hdigest⟩ := reaches_digest (s := s.aimedAt a n) hf hb (by rwa [hlen]) (by rwa [hsrc, hlen])
    (by rw [hsrc, hlen]; exact hr) (List.finRange 8)
  have hreach := (reaches_setsrc _ hf hb ha').trans
    ((reaches_setlen (s := s.pointedAt a) _ hf hb (by omega)).trans hdigest)
  rw [hsrc, hlen] at hreach
  obtain ⟨k, hk⟩ := run_of_reaches hreach
  rw [withProgram_sha256 hs a n]
  exact ⟨k, _, hk, ⟨rfl, hf, rfl⟩, doneAlone_toWord, take_reads _ log⟩

end Sys2Proof.Machine
